-- ==== Sys2Proof/Word.lean ====
section
/-! DEFINITION. The word types of the block (00_scope.md R9, R10). -/

namespace Sys2Proof

/-- A 32-bit register word (00_scope.md R10); bit 0 is the least significant (R9). -/
abbrev Word := BitVec 32

/-- A byte of the model's own byte form of commands. The register window has no byte view (20_memory.md R54). -/
abbrev Byte := BitVec 8

end Sys2Proof
end

