-- ==== Sys2Proof/Config.lean ====
section
/-! DEFINITION. The architectural constants (00_scope.md R7), the open parameters (R8) and the free values.
A parameter or a free value has no body, so no proof can rest on its value. -/

namespace Sys2Proof

/-- The floating-point format of gains (00_scope.md R8 `GAIN_FMT`, R10). -/
inductive GainFmt where
  | real
  | binary32
  | binary64
  deriving DecidableEq, Repr, Inhabited

/-- The order of bytes inside a word (00_scope.md R8 `BYTE_ORDER`). -/
inductive ByteOrder where
  | little
  | big
  deriving DecidableEq, Repr, Inhabited

namespace Config

/-! ## Architectural constants, 00_scope.md R7 -/

/-- `CHANNELS_OUT`: frequency-slice output channels. -/
abbrev channelsOut : Nat := 10
/-- `NUM_POL`: polarisations. -/
abbrev numPol : Nat := 2
/-- `N_GAIN`: the number of `FS` registers. -/
abbrev nGain : Nat := 20
/-- `OFF_FRAME_COUNT`: byte offset of `FC` from the base. -/
abbrev offFrameCount : Nat := 0x0
/-- `OFF_FS`: byte offset of `FS[0]` from the base. -/
abbrev offFs : Nat := 0x4
/-- `REG_STRIDE`: bytes between consecutive `FS` registers. -/
abbrev regStride : Nat := 4
/-- `WINDOW_BYTES`: the extent of the window (00_scope.md R8, 20_memory.md R51). -/
abbrev windowBytes : Nat := 0x54
/-- `SHIFT_LSB`: the lowest bit of the shift field. -/
abbrev shiftLsb : Nat := 0
/-- `SHIFT_W`: the width of the shift field. -/
abbrev shiftW : Nat := 4
/-- `SCALE_LSB`: the lowest bit of the scale field. -/
abbrev scaleLsb : Nat := 4
/-- `SCALE_W`: the width of the scale field. -/
abbrev scaleW : Nat := 16
/-- The numerator of `K_NORM`, the literal 0.9475 taken as exactly 379/400 (41_gain_codec.md R120). -/
abbrev kNormNum : Nat := 379
/-- The denominator of `K_NORM`. -/
abbrev kNormDen : Nat := 400
/-- `INT_GAIN_MAX`: the source's upper bound of `int_gain`. -/
abbrev intGainMax : Nat := 32767
/-- `SCALE_ONE`: the scale that stands for the multiplier 1.0, also the largest scale. -/
abbrev scaleOne : Nat := 65535
/-- `SR_FACTOR`: the fixed literal of the sample-rate inverse. -/
abbrev srFactor : Nat := 18
/-- `E_MAX`: the largest exponent the encoder produces (00_scope.md R8), the largest whose power of two respects
`INT_GAIN_MAX` (41_gain_codec.md R121; `Machine.eMax_spec`). -/
abbrev eMax : Nat := 14

/-! ## Open parameters, 00_scope.md R8 -/

/-- How many bits `ADDR_W` has above the 7 that the constraint of R8 demands (log entry 12). -/
opaque addrWExtra : Nat

/-- `ADDR_W`, the width of a byte address; at least 7 (00_scope.md R8). -/
def addrW : Nat := addrWExtra + 7

/-- `GAIN_FMT`, the format of `Status.gains` (00_scope.md R8; log entry 14). -/
opaque gainFmt : GainFmt

/-- What `DEFAULT_SAMPLE_RATE` is made from (log entry 13). -/
opaque defaultSampleRateRaw : Word

/-- `DEFAULT_SAMPLE_RATE`: any value with `0 < v < 2^32` (00_scope.md R8). -/
def defaultSampleRate : Word := if defaultSampleRateRaw = 0 then 1 else defaultSampleRateRaw

/-- What `DEFAULT_INPUT_FRAME_SIZE` is made from (log entry 13). -/
opaque defaultInputFrameSizeRaw : Word

/-- `DEFAULT_INPUT_FRAME_SIZE`: any value with `0 < v < 2^32` (00_scope.md R8). -/
def defaultInputFrameSize : Word :=
  if defaultInputFrameSizeRaw = 0 then 1 else defaultInputFrameSizeRaw

/-- `BUS_FAULT_DETECT`: whether the platform detects a failed transaction (00_scope.md R8; log entry 11). -/
opaque busFaultDetect : Bool

/-- `BYTE_ORDER`: no rule reads it, and no definition of the model does (00_scope.md R8, 20_memory.md R54). -/
opaque byteOrder : ByteOrder

/-! ## Real numbers that are no `Surd` -/

/-- `C_NORM = K_NORM * sqrt(2 * CHANNELS_OUT)` (41_gain_codec.md R120). -/
noncomputable def cNorm : ℝ := (kNormNum : ℝ) / (kNormDen : ℝ) * Real.sqrt (2 * (channelsOut : ℝ))

/-- A real number together with the integers that the codec asks of it, and proofs that they are the right ones. Every
real number has one (`Machine.exists_realOracle`). -/
structure RealOracle where
  value : ℝ
  /-- The floor of `value * C_NORM * n / d`. -/
  floorComb : Int → Nat → Int
  /-- The floor of `1 / (value * C_NORM)`. -/
  recipComb : Int
  floorComb_eq : ∀ (n : Int) (d : Nat), floorComb n d = ⌊value * cNorm * (n : ℝ) / (d : ℝ)⌋
  recipComb_eq : recipComb = ⌊1 / (value * cNorm)⌋

/-- The real number that a name stands for: nothing constrains it, so it may be any (00_scope.md R10; log entry 15).
A name without a number stands for 0. -/
opaque otherReal : Nat → Option RealOracle

/-! ## Free values -/

/-- The draw a register takes at a reset event, applied to the state's draw counter
(10_state.md R33, 70_reset_and_hazards.md R210; log entry 8). -/
opaque resetDraw : Nat → Word

/-- The draw the reserved bits of an `FS` register take after a raw write with non-zero bits there, applied to the
state's draw counter (10_state.md R24 (b); log entry 9). -/
opaque reservedDraw : Nat → BitVec 12

end Config

end Sys2Proof
end

