-- ==== Sys2Proof/Syntax.lean ====
section
/-! DEFINITION. The instructions: one constructor for each row of opcode_table.json, with their operand records,
and the byte form in which they are presented (log entries 2 and 3). -/

namespace Sys2Proof

/-! ## Gains -/

/-- The exact number `(rat + root * sqrt 5) / (denPred + 1)`. These numbers are closed under everything the codec does:
`C_NORM = (379/200) * sqrt 5` (41_gain_codec.md R120), so every binary gain and every decoded gain is one of them. -/
structure Surd where
  rat : Int
  root : Int
  denPred : Nat
  deriving DecidableEq, Repr

/-- The (positive) denominator. -/
def Surd.den (x : Surd) : Nat := x.denPred + 1

/-- A value of the format `real` (00_scope.md R10): a number written out, or a name for one of the others, of which
`Config.otherReal` says no more than that it is a real number (log entry 15). -/
inductive RealNumber where
  | surd (x : Surd)
  | other (name : Nat)
  deriving DecidableEq, Repr

/-- A value of one of the three gain formats (00_scope.md R10); a binary one is given by its bits. -/
inductive Gain where
  | real (x : RealNumber)
  | binary32 (bits : BitVec 32)
  | binary64 (bits : BitVec 64)
  deriving DecidableEq, Repr

/-- The operand record of `configure` and `deconfigure` (10_state.md R28). -/
structure VccConfig where
  sampleRate : Word
  pol : Word
  channel : Word
  inputFrameSize : Word
  gain : Gain
  deriving DecidableEq, Repr

/-! ## Instructions -/

/-- One constructor per row of opcode_table.json: nine commands (30_encoding.md R88) and eight combinational units
(R89; log entry 1). Operands are typed as the row gives them. -/
inductive Instr where
  /-- CONSTRUCT, R150. -/
  | construct (name : List Byte) (baseAddress : Nat)
  /-- REGISTER_WRITE, R110. -/
  | registerWrite (addr : Nat) (value : Word)
  /-- REGISTER_READ, R111. -/
  | registerRead (addr : Nat)
  /-- RECOVER, R153. -/
  | recover
  /-- CONFIGURE, R151. -/
  | configure (config : VccConfig)
  /-- START, R154. -/
  | start
  /-- STOP, R155. -/
  | stop (force : Bool)
  /-- DECONFIGURE, R152. -/
  | deconfigure (config : VccConfig)
  /-- STATUS, R156. -/
  | status (clear : Bool)
  /-- ENCODE_GAIN, R121. -/
  | encodeGain (gain : Gain)
  /-- DECODE_GAIN, R122. -/
  | decodeGain (shift : BitVec 4) (scale : BitVec 16)
  /-- PACK, R123: the operands are naturals, the masks make the unit total. -/
  | pack (shift scale : Nat)
  /-- UNPACK, R124. -/
  | unpack (word : Word)
  /-- FRAME_COUNT_OF, R125. -/
  | frameCountOf (sampleRate inputFrameSize : Word)
  /-- SAMPLE_RATE_OF, R126. -/
  | sampleRateOf (frameCount : Word)
  /-- REG_INDEX, R84: channel 0..9, pol 0..1. -/
  | regIndex (channel : Fin 10) (pol : Fin 2)
  /-- REG_ADDR, R85: index 0..19. -/
  | regAddr (index : Fin 20)
  deriving DecidableEq, Repr

/-! ## The byte form -/

/-- The "format" column of opcode_table.json. -/
inductive Format where
  | cmd
  | unit
  deriving DecidableEq, Repr

/-- One presented instruction: its format and its bytes, the first the least significant (log entries 2 and 3). -/
structure Frame where
  format : Format
  bytes : List Byte
  deriving DecidableEq, Repr

/-- Why bytes are no instruction. -/
inductive DecodeError where
  /-- Opcodes 0x9 to 0xF are not commands (30_encoding.md R90). -/
  | unassignedOpcode
  /-- The bits above the opcode are not zero in a command that uses none of them. -/
  | unusedBits
  /-- Fewer bytes than the operands need. -/
  | truncated
  /-- Bytes other than zero after the operands. -/
  | trailingBytes
  /-- A Boolean operand that is neither 0 nor 1. -/
  | badBool
  /-- A gain tag that names no format. -/
  | badGainTag
  /-- A unit selector that names no row of the table. -/
  | unassignedUnit
  /-- Bits 31 to 20 of PACK's word, or bits above the row's word, are not zero. -/
  | reservedBits
  /-- An index outside 0..19, which "never occur" (opcode_table.json, REG_INDEX and REG_ADDR). -/
  | indexOutOfRange
  deriving DecidableEq, Repr

end Sys2Proof
end

