-- ==== Sys2Proof/Machine/State.lean ====
section
/-! DEFINITION. The state of the machine, the results of commands and the reasons a step can stop. -/

namespace Sys2Proof.Machine

/-- One of the 21 registers of the window (20_memory.md R51). -/
inductive Reg where
  | fc
  | fs (index : Fin 20)
  deriving DecidableEq, Repr

/-- The direction of a bus transaction (20_memory.md R67). -/
inductive Direction where
  | read
  | write
  deriving DecidableEq, Repr

/-- A completed bus transaction, `(W, addr, value)` or `(R, addr, value)` (20_memory.md R67). -/
structure Transaction where
  dir : Direction
  addr : Nat
  value : Word
  deriving DecidableEq, Repr

/-- The outcome of one bus transaction, supplied by the environment (20_memory.md R66). -/
inductive BusOutcome where
  | ok
  | fault
  deriving DecidableEq, Repr

/-- The operand an `InvalidArgument` names (60_exceptions.md R180, R181). -/
inductive ArgInfo where
  | channel
  | pol
  | inputFrameSize
  | gain
  deriving DecidableEq, Repr

/-- The result of `encode_gain` (41_gain_codec.md R121). -/
structure Encoded where
  shift : BitVec 4
  scale : BitVec 16
  outOfRange : Bool
  deriving DecidableEq, Repr

/-- The result record of `status` (10_state.md R29). -/
structure Status where
  sampleRate : Word
  numChannels : Nat
  numPolarisations : Nat
  gains : List Gain
  deriving DecidableEq, Repr

/-- What an `Ok` result carries (30_encoding.md R88 for commands, 41_gain_codec.md for units). -/
inductive Value where
  /-- No value: CONSTRUCT, REGISTER_WRITE, START, STOP. -/
  | none
  /-- A word: REGISTER_READ, PACK, FRAME_COUNT_OF, SAMPLE_RATE_OF. -/
  | word (w : Word)
  /-- The Boolean of CONFIGURE, DECONFIGURE and RECOVER (60_exceptions.md R182). -/
  | outOfRange (b : Bool)
  /-- STATUS. -/
  | status (st : Status)
  /-- ENCODE_GAIN. -/
  | encoded (e : Encoded)
  /-- DECODE_GAIN. -/
  | gain (g : Gain)
  /-- UNPACK. -/
  | fields (shift : BitVec 4) (scale : BitVec 16)
  /-- REG_INDEX. -/
  | index (i : Fin 20)
  /-- REG_ADDR. -/
  | address (a : Nat)
  deriving DecidableEq, Repr

/-- The one result every command ends with (60_exceptions.md R180). -/
inductive Result where
  | ok (v : Value)
  | invalidArgument (info : ArgInfo)
  | deviceFault (addr : Nat) (dir : Direction)
  deriving DecidableEq, Repr

/-- The identity of the Device, bound by CONSTRUCT and never changed (10_state.md R21, 42_device_ops.md R150). -/
structure Device where
  name : List Byte
  base : Nat
  deriving DecidableEq, Repr

/-- What is presented next: a command of the caller, or a reset event of the environment between two commands
(70_reset_and_hazards.md R210; log entries 4 and 8). -/
inductive Input where
  | request (f : Frame)
  | reset
  deriving DecidableEq, Repr

/-- The 21 registers (10_state.md R20), the Device's identity (R21), and the model's own bookkeeping. -/
structure State where
  /-- `FC`, the frame-count register (10_state.md R22). -/
  fc : Word
  /-- `FS[0] .. FS[19]`, the packed shift/scale registers (10_state.md R23). -/
  fs : Vector Word 20
  /-- `NAME` and `BASE`, once constructed (10_state.md R21). -/
  device : Option Device
  /-- Bookkeeping: the result of the command that ended last (60_exceptions.md R180). -/
  result : Option Result
  /-- Bookkeeping: the completed transactions, oldest first (20_memory.md R67). -/
  busTrace : List Transaction
  /-- Bookkeeping: a `DeviceFault` has occurred; never cleared (60_exceptions.md R183). -/
  faultMark : Bool
  /-- Bookkeeping: how many draws the environment has made (10_state.md R24, R33). -/
  drawCount : Nat
  /-- Environment: the outcomes of the coming transactions, `ok` once used up (20_memory.md R66; log entry 10). -/
  busScript : List BusOutcome
  /-- Caller and environment: what is presented next (log entry 4). -/
  pending : List Input
  deriving DecidableEq, Repr

/-- Nothing of this block stops the machine with a fault: its errors are results, after which it accepts the next
command (60_exceptions.md R187, R188). -/
inductive Fault where
  deriving DecidableEq, Repr

/-- Runs to which the spec gives no meaning. Every one is safe: nothing can be proved of what comes after it. -/
inductive Refusal where
  /-- An instruction without a meaning yet; raised by no arm of this model. Safe. -/
  | notModelled (mnemonic : String)
  /-- The presented bytes are no instruction; raised by `step` (30_encoding.md R90, 93 U16). Safe. -/
  | undecodable (why : DecodeError)
  /-- A command before `construct`; raised by every meaning that needs `BASE` or the Device (42_device_ops.md R150). Safe. -/
  | notConstructed
  /-- A second `construct`; raised by CONSTRUCT (42_device_ops.md R150). Safe. -/
  | alreadyConstructed
  /-- A `base_address` that is misaligned or whose window leaves the address space; raised by CONSTRUCT (R150). Safe. -/
  | invalidBase
  /-- An address that is not a multiple of 4; raised by a bus transaction (20_memory.md R53, R57). Safe. -/
  | misalignedAddress
  /-- An address outside the window; raised by a bus transaction (20_memory.md R57). Safe. -/
  | addressOutsideWindow
  /-- A failed transaction on a platform that cannot detect it; raised at the end of a command (20_memory.md R66). Safe. -/
  | undetectedBusFault
  deriving DecidableEq, Repr

/-- The machine right after reset. The spec gives the registers no reset value (10_state.md R33): zero is a DESIGN
CHOICE, unsafe (log entry 6). The other fields are the model's own, except `device`: `construct` comes first in a run
(42_device_ops.md R150). Log entry 7. -/
def State.reset : State where
  fc := 0
  fs := Vector.replicate 20 0
  device := none
  result := none
  busTrace := []
  faultMark := false
  drawCount := 0
  busScript := []
  pending := []

end Sys2Proof.Machine
end

