-- ==== Sys2Proof/Machine/Flags.lean ====
section
/-! DEFINITION. The one flag-like value of the block (10_state.md R27) and the model's fault mark. The block stores no
flag. -/

namespace Sys2Proof.Machine

/-- `out_of_range`, 41_gain_codec.md R121 line 11 and 60_exceptions.md R182: the exponent before the clamp exceeds
`E_MAX`. An exponent below 0 is clamped silently. -/
def outOfRange (eRaw : Int) : Bool := decide ((Config.eMax : Int) < eRaw)

/-- The model's mark of a `DeviceFault`: set, never cleared (60_exceptions.md R183). -/
def markFault (s : State) : State := { s with faultMark := true }

end Sys2Proof.Machine
end

