-- ==== Sys2Proof/Machine/Operands.lean ====
section
/-! DEFINITION. Word formats and operand assembly: PACK, UNPACK, REG_INDEX, REG_ADDR, the window, the two sample-rate
conversions, the argument check, the result codes. -/

namespace Sys2Proof.Machine

/-! ## Register words -/

/-- `shift`, bits 3..0 of an `FS_SFT_SCL` word (30_encoding.md R82). -/
def shiftField (w : Word) : BitVec 4 := w.extractLsb' Config.shiftLsb Config.shiftW

/-- `scale`, bits 19..4 (30_encoding.md R82). -/
def scaleField (w : Word) : BitVec 16 := w.extractLsb' Config.scaleLsb Config.scaleW

/-- `rsvd`, bits 31..20 (30_encoding.md R82, 10_state.md R24). -/
def rsvdField (w : Word) : BitVec 12 := w.extractLsb' (Config.scaleLsb + Config.scaleW) 12

/-- `pack`, 41_gain_codec.md R123: `(shift & 0xF) | ((scale & 0xFFFF) << 4)`. -/
def pack (shift scale : Nat) : Word := BitVec.ofNat 32 ((shift &&& 0xF) ||| ((scale &&& 0xFFFF) <<< 4))

/-- `unpack`, 41_gain_codec.md R124: bits 31..20 are ignored. -/
def unpack (w : Word) : BitVec 4 × BitVec 16 := (shiftField w, scaleField w)

/-! ## Index and address -/

/-- `reg_index`, 30_encoding.md R84: `channel + pol * 10`. -/
def regIndex (channel : Fin 10) (pol : Fin 2) : Fin 20 := ⟨channel.val + pol.val * 10, by omega⟩

/-- `reg_addr`, 30_encoding.md R85: `BASE + 0x4 + i*4`. -/
def regAddr (base : Nat) (i : Fin 20) : Nat := base + Config.offFs + i.val * Config.regStride

/-- The address of `FC`, 30_encoding.md R85: `BASE + 0x0`. -/
def fcAddr (base : Nat) : Nat := base + Config.offFrameCount

/-- The address of a register of the window (20_memory.md R51). -/
def addrOf (base : Nat) : Reg → Nat
  | .fc => fcAddr base
  | .fs i => regAddr base i

/-- The register an address selects (20_memory.md R55, R56), or why there is none: the address is not a multiple of 4
(R53) or outside the window (R57). -/
def windowReg (base addr : Nat) : Except Refusal Reg :=
  if addr % 4 ≠ 0 then .error .misalignedAddress
  else if h : base ≤ addr ∧ addr < base + Config.windowBytes then
    if addr - base = 0 then .ok .fc
    else .ok (.fs ⟨(addr - base - Config.offFs) / Config.regStride, by simp only [Config.windowBytes, Config.offFs, Config.regStride] at *; omega⟩)
  else .error .addressOutsideWindow

/-- The `base_address` that CONSTRUCT accepts: a multiple of 4 whose window lies in the address space
(42_device_ops.md R150). A window inside the first 128 bytes always does, since `ADDR_W >= 7`; that test comes first so
that it can be evaluated without the open `ADDR_W`. -/
def validBase (base : Nat) : Bool :=
  decide (base % 4 = 0) &&
    (decide (base + Config.windowBytes ≤ 2 ^ 7) || decide (base + Config.windowBytes ≤ 2 ^ Config.addrW))

/-! ## Sample rate and frame count -/

/-- `frame_count_of`, 41_gain_codec.md R125: unsigned division, remainder discarded. -/
def frameCountOf (sampleRate inputFrameSize : Word) : Word :=
  BitVec.ofNat 32 (sampleRate.toNat / inputFrameSize.toNat)

/-- `sample_rate_of`, 41_gain_codec.md R126: `(frame_count * 18) mod 2^32`. -/
def sampleRateOf (frameCount : Word) : Word := BitVec.ofNat 32 (frameCount.toNat * Config.srFactor)

/-! ## Result codes, 60_exceptions.md R180 -/

/-- The code of the operand an `InvalidArgument` names. -/
def argInfoCode : ArgInfo → Nat
  | .channel => 1
  | .pol => 2
  | .inputFrameSize => 3
  | .gain => 4

/-- The code of a result. -/
def resultCode : Result → Nat
  | .ok _ => 0
  | .invalidArgument _ => 1
  | .deviceFault _ _ => 2

end Sys2Proof.Machine
end

