-- ==== Sys2Proof/Machine/Codec.lean ====
section
/-! DEFINITION. The gain codec (41_gain_codec.md) in exact integer arithmetic, as R130 asks. Every quantity is a number
`(p + q * sqrt 5) / d` with integers `p`, `q` and a positive natural `d`; of a real gain that is no such number the
codec uses only the integers that `Config.RealOracle` gives. -/

namespace Sys2Proof.Machine

/-! ## Exact arithmetic on `(p + q * sqrt 5) / d` -/

/-- Fixes the bits of the square root of `n` from bit `k - 1` down, `acc` being the bits fixed so far. -/
def isqrtFrom (n : Nat) : Nat → Nat → Nat
  | 0, acc => acc
  | k + 1, acc =>
    if (acc + 2 ^ k) * (acc + 2 ^ k) ≤ n then isqrtFrom n k (acc + 2 ^ k) else isqrtFrom n k acc

/-- The integer square root. -/
def isqrt (n : Nat) : Nat := isqrtFrom n (Nat.log2 n / 2 + 1) 0

/-- The floor of `q * sqrt 5`; for `q < 0` the number is no integer, since `sqrt 5` is irrational. -/
def floorRoot (q : Int) : Int :=
  if 0 ≤ q then (isqrt (5 * (q.natAbs * q.natAbs)) : Int)
  else -((isqrt (5 * (q.natAbs * q.natAbs)) : Int) + 1)

/-- The floor of `(p + q * sqrt 5) / d`, `d > 0`. -/
def floorSurd (p q : Int) (d : Nat) : Int := (p + floorRoot q) / (d : Int)

/-- Whether `p + q * sqrt 5 > 0`. -/
def surdPos (p q : Int) : Bool :=
  if 0 ≤ q then decide (0 < p) || decide (p * p < 5 * (q * q))
  else decide (0 < p) && decide (5 * (q * q) < p * p)

/-- The floor of `d / (p + q * sqrt 5)`, for `p + q * sqrt 5 > 0`, by the conjugate. -/
def recipFloor (p q : Int) (d : Nat) : Int :=
  if 0 < p * p - 5 * (q * q) then
    floorSurd (d * p) (-(d * q)) (p * p - 5 * (q * q)).toNat
  else floorSurd (-(d * p)) (d * q) (5 * (q * q) - p * p).toNat

/-- `ceil(log2 y)` for `y > 0` (41_gain_codec.md R121 line 5): the least integer `k` with `y <= 2^k` (R130). Above 1 it
is found from the ceiling of `y`, else from the floor of `1 / y`. -/
def ceilLog2 (ceil recip : Int) : Int :=
  if 1 < ceil then ((Nat.log2 (ceil.toNat - 1) + 1 : Nat) : Int)
  else -((Nat.log2 recip.toNat : Nat) : Int)

/-! ## The value of a gain, 41_gain_codec.md R128 -/

/-- The exact value of a finite binary number of `mbits` fraction and `ebits` exponent bits, whose unit in the last
place at biased exponent `x` is `2^(x - bias)`; none for a NaN or an infinity. -/
def binaryValue (mbits ebits bias bits : Nat) : Option Surd :=
  let frac := bits % 2 ^ mbits
  let ex := bits / 2 ^ mbits % 2 ^ ebits
  let x := max ex 1
  let m := if ex = 0 then frac else frac + 2 ^ mbits
  let num : Int := ((m * 2 ^ (x - bias) : Nat) : Int)
  if ex = 2 ^ ebits - 1 then none
  else some ⟨if bits / 2 ^ (mbits + ebits) % 2 = 1 then -num else num, 0, 2 ^ (bias - x) - 1⟩

/-- `val(g)`, 00_scope.md R10: the exact real number a finite gain denotes. -/
def gainValue : Gain → Option RealNumber
  | .real x => some x
  | .binary32 bits => (binaryValue 23 8 150 bits.toNat).map .surd
  | .binary64 bits => (binaryValue 52 11 1075 bits.toNat).map .surd

/-- Whether a real number is greater than zero; one without a `Surd` is when the floor of `-comb` is negative. -/
def realPos : RealNumber → Bool
  | .surd x => surdPos x.rat x.root
  | .other name =>
    match Config.otherReal name with
    | none => false
    | some r => decide (r.floorComb (-1) 1 < 0)

/-- The value of a finite gain greater than zero, else none: lines 1 to 3 of R121 and line 4 of R157. -/
def positiveValue (g : Gain) : Option RealNumber :=
  match gainValue g with
  | none => none
  | some x => if realPos x then some x else none

/-! ## ENCODE_GAIN, 41_gain_codec.md R121 -/

/-! `C_NORM = K_NORM * sqrt 20 = 2 * K_NORM * sqrt 5` (R120). -/

/-- The rational part of `comb = x * C_NORM` (line 4), over `combDen`. -/
def combRat (x : Surd) : Int := 5 * (2 * Config.kNormNum) * x.root

/-- The `sqrt 5` part of `comb`, over `combDen`. -/
def combRoot (x : Surd) : Int := 2 * Config.kNormNum * x.rat

/-- The denominator of `comb`. -/
def combDen (x : Surd) : Nat := Config.kNormDen * x.den

/-- The floor of `comb * n / d`, `d > 0`. -/
def combFloor (x : RealNumber) (n : Int) (d : Nat) : Int :=
  match x with
  | .surd x => floorSurd (n * combRat x) (n * combRoot x) (combDen x * d)
  | .other name =>
    match Config.otherReal name with
    | none => 0
    | some r => r.floorComb n d

/-- The floor of `1 / comb`, for `comb > 0`. -/
def combRecip (x : RealNumber) : Int :=
  match x with
  | .surd x => recipFloor (combRat x) (combRoot x) (combDen x)
  | .other name =>
    match Config.otherReal name with
    | none => 0
    | some r => r.recipComb

/-- The ceiling of `comb`. -/
def combCeil (x : RealNumber) : Int := -combFloor x (-1) 1

/-- `e_raw := ceil(log2(comb))`, line 5. -/
def eRaw (x : RealNumber) : Int := ceilLog2 (combCeil x) (combRecip x)

/-- `e := clamp(e_raw, 0, 14)`, line 6; also the shift, line 8. -/
def exponentOf (x : RealNumber) : Nat := (max 0 (min (eRaw x) Config.eMax)).toNat

/-- `int_gain := 2^e`, line 7; never above `INT_GAIN_MAX` (`Machine.intGain_le`). -/
def intGain (x : RealNumber) : Nat := 2 ^ exponentOf x

/-- `s_raw := floor((comb / int_gain) * 65535)`, line 9. -/
def scaleRaw (x : RealNumber) : Int := combFloor x Config.scaleOne (intGain x)

/-- `scale := clamp(s_raw, 0, 65535)`, line 10. -/
def scaleOf (x : RealNumber) : Nat := (max 0 (min (scaleRaw x) Config.scaleOne)).toNat

/-- Lines 4 to 12 for a positive number. -/
def encodeExact (x : RealNumber) : Encoded :=
  ⟨BitVec.ofNat 4 (exponentOf x), BitVec.ofNat 16 (scaleOf x), outOfRange (eRaw x)⟩

/-- `encode_gain`, 41_gain_codec.md R121: `InvalidArgument(gain)` for a NaN, an infinity, a zero or a negative number. -/
def encodeGain (g : Gain) : Except ArgInfo Encoded :=
  match positiveValue g with
  | none => .error .gain
  | some x => .ok (encodeExact x)

/-- The word an encoded gain is packed into (R123). -/
def packEncoded (e : Encoded) : Word := pack e.shift.toNat e.scale.toNat

/-! ## DECODE_GAIN, 41_gain_codec.md R122 and R129 -/

/-- `scale * 2^shift / (65535 * C_NORM)`, exactly (lines 1 to 3): `1 / C_NORM` is
`sqrt 5 / (10 * K_NORM)`. -/
def decodeExact (shift : BitVec 4) (scale : BitVec 16) : Surd :=
  ⟨0, ((Config.kNormDen * (scale.toNat * 2 ^ shift.toNat) : Nat) : Int),
    Config.scaleOne * (10 * Config.kNormNum) - 1⟩

/-- The magnitude bits of the binary number nearest to `(p + q * sqrt 5) / d >= 0`, ties to an even significand (R129).
`n` counts units of the smallest subnormal, `2^-unit`; `h` is the binade above the subnormals. -/
def nearestBits (mbits unit infBits : Nat) (p q : Int) (d : Nat) : Nat :=
  let n := (floorSurd (p * 2 ^ unit) (q * 2 ^ unit) d).toNat
  let h := Nat.log2 n - mbits
  let m := n / 2 ^ h
  let overHalf : Int := p * 2 ^ (unit + 1) - ((2 * m + 1) * 2 ^ h * d : Nat)
  let up := if surdPos overHalf (q * 2 ^ (unit + 1)) then 1
    else if overHalf = 0 ∧ q = 0 then m % 2 else 0
  min (h * 2 ^ mbits + m + up) infBits

/-- `nearestBits` with the sign in the top bit. -/
def roundBits (mbits ebits unit : Nat) (x : Surd) : Nat :=
  let infBits := (2 ^ ebits - 1) * 2 ^ mbits
  if surdPos (-x.rat) (-x.root) then
    2 ^ (mbits + ebits) + nearestBits mbits unit infBits (-x.rat) (-x.root) x.den
  else nearestBits mbits unit infBits x.rat x.root x.den

/-- `fl`, 41_gain_codec.md R129: the value of the format nearest to a real number. -/
def fl (fmt : GainFmt) (x : Surd) : Gain :=
  match fmt with
  | .real => .real (.surd x)
  | .binary32 => .binary32 (BitVec.ofNat 32 (roundBits 23 8 149 x))
  | .binary64 => .binary64 (BitVec.ofNat 64 (roundBits 52 11 1074 x))

/-- `decode_gain` into a given format, 41_gain_codec.md R122. -/
def decodeGainIn (fmt : GainFmt) (shift : BitVec 4) (scale : BitVec 16) : Gain :=
  fl fmt (decodeExact shift scale)

/-- `decode_gain`, 41_gain_codec.md R122, into `GAIN_FMT`. -/
def decodeGain (shift : BitVec 4) (scale : BitVec 16) : Gain := decodeGainIn Config.gainFmt shift scale

/-- What `status` makes of an `FS` word: `decode_gain` of `unpack` (10_state.md R29). -/
def decodeWord (w : Word) : Gain := decodeGain (unpack w).1 (unpack w).2

/-! ## The datapath view, 10_state.md R31 -/

/-- What the channeliser sees at every instant: `frame_count` and, for each index, `shift` and `scale`. -/
def datapathView (s : State) : Word × List (BitVec 4 × BitVec 16) := (s.fc, s.fs.toList.map unpack)

end Sys2Proof.Machine
end

