-- ==== Sys2Proof/Machine/Ops.lean ====
section
/-! DEFINITION. The named operations: registers, bus transactions, the end of a command, the argument check and the
reset event. -/

namespace Sys2Proof.Machine

/-! ## Registers -/

/-- The word a register holds. -/
def readReg (s : State) : Reg → Word
  | .fc => s.fc
  | .fs i => s.fs[i]

/-- Stores a word in a register (20_memory.md R55). A word with non-zero reserved bits leaves a draw in those bits of
an `FS` register (10_state.md R24 (b)); any other word is stored exactly (R24 (c)). -/
def writeReg (r : Reg) (v : Word) (s : State) : State :=
  match r with
  | .fc => { s with fc := v }
  | .fs i =>
    if rsvdField v = 0 then { s with fs := s.fs.set i v }
    else { s with
      fs := s.fs.set i (Config.reservedDraw s.drawCount ++ v.extractLsb' 0 20)
      drawCount := s.drawCount + 1 }

/-! ## Bus transactions -/

/-- How a sequence of transactions stands: done, stopped at a failed transaction, or refused. -/
inductive BusResult (α : Type) where
  | done (a : α) (s : State)
  | failed (addr : Nat) (dir : Direction) (s : State)
  | refused (r : Refusal)

/-- Goes on after a transaction that completed; nothing after a failed one is issued (60_exceptions.md R183). -/
def BusResult.andThen {α β : Type} (x : BusResult α) (k : α → State → BusResult β) : BusResult β :=
  match x with
  | .done a s => k a s
  | .failed addr dir s => .failed addr dir s
  | .refused r => .refused r

/-- The environment's outcome of the next transaction (20_memory.md R66): the head of the script, `ok` after its end. -/
def nextOutcome (s : State) : BusOutcome := s.busScript.headD .ok

/-- The script after one transaction. -/
def dropOutcome (s : State) : State := { s with busScript := s.busScript.tail }

/-- Appends a completed transaction to the trace (20_memory.md R67). -/
def record (t : Transaction) (s : State) : State := { s with busTrace := s.busTrace ++ [t] }

/-- `BusWrite(addr, v)`, 20_memory.md R55, R66: a faulted write stores nothing and appends no entry. -/
def busWrite (base addr : Nat) (v : Word) (s : State) : BusResult Unit :=
  match windowReg base addr with
  | .error why => .refused why
  | .ok r =>
    match nextOutcome s with
    | .ok => .done () (record ⟨.write, addr, v⟩ (writeReg r v (dropOutcome s)))
    | .fault => .failed addr .write (dropOutcome s)

/-- `BusRead(addr)`, 20_memory.md R56, R66: a read changes no register; a faulted read returns nothing. -/
def busRead (base addr : Nat) (s : State) : BusResult Word :=
  match windowReg base addr with
  | .error why => .refused why
  | .ok r =>
    match nextOutcome s with
    | .ok => .done (readReg s r) (record ⟨.read, addr, readReg s r⟩ (dropOutcome s))
    | .fault => .failed addr .read (dropOutcome s)

/-! ## The end of a command -/

/-- A command ends with a result (60_exceptions.md R180, R187): no register, no saved state, only the result. -/
def reply (r : Result) (s : State) : Host.Outcome State Fault Refusal := .next { s with result := some r }

/-- `raise DeviceFault` (60_exceptions.md R183): the state is that after the transactions that completed. Where the
platform cannot detect the failure, the run is refused (20_memory.md R66). -/
def raiseDeviceFault (addr : Nat) (dir : Direction) (s : State) : Host.Outcome State Fault Refusal :=
  if Config.busFaultDetect then reply (.deviceFault addr dir) (markFault s)
  else .refused .undetectedBusFault

/-- `raise InvalidArgument(info)` (60_exceptions.md R181, R187): nothing else changes. -/
def raiseInvalidArgument (info : ArgInfo) (s : State) : Host.Outcome State Fault Refusal :=
  reply (.invalidArgument info) s

/-- Ends a command after its transactions. -/
def endCommand (x : BusResult Value) : Host.Outcome State Fault Refusal :=
  match x with
  | .done v s => reply (.ok v) s
  | .failed addr dir s => raiseDeviceFault addr dir s
  | .refused r => .refused r

/-- `require device constructed` (42_device_ops.md R150). -/
def withDevice (s : State) (k : Device → Host.Outcome State Fault Refusal) :
    Host.Outcome State Fault Refusal :=
  match s.device with
  | none => .refused .notConstructed
  | some d => k d

/-! ## Argument validation, 42_device_ops.md R157 -/

/-- A config that passed `validate`, its operands in the types that say so. -/
structure ValidConfig where
  sampleRate : Word
  inputFrameSize : Word
  channel : Fin 10
  pol : Fin 2
  gain : RealNumber
  deriving DecidableEq, Repr

/-- `validate(c)`: the first failing line wins (60_exceptions.md R186); no register is touched. -/
def validate (c : VccConfig) : Except ArgInfo ValidConfig :=
  if hc : c.channel.toNat < 10 then
    if hp : c.pol.toNat < 2 then
      if c.inputFrameSize = 0 then .error .inputFrameSize
      else
        match positiveValue c.gain with
        | none => .error .gain
        | some x => .ok ⟨c.sampleRate, c.inputFrameSize, ⟨c.channel.toNat, hc⟩, ⟨c.pol.toNat, hp⟩, x⟩
    else .error .pol
  else .error .channel

/-! ## The writes of configure, 42_device_ops.md R151 -/

/-- The number 1.0, which every gain format represents exactly: `DEFAULT_GAIN` (00_scope.md R7). -/
def unityGain : RealNumber := .surd ⟨1, 0, 0⟩

/-- Steps 3 to 8 of R151: `FC` first, then the `FS` register of the pair; the value is step 9's `oor`. -/
def configureWrites (base : Nat) (c : ValidConfig) (s : State) : BusResult Bool :=
  (busWrite base (fcAddr base) (frameCountOf c.sampleRate c.inputFrameSize) s).andThen fun _ s =>
    (busWrite base (regAddr base (regIndex c.channel c.pol)) (packEncoded (encodeExact c.gain)) s).andThen
      fun _ s => .done (encodeExact c.gain).outOfRange s

/-- The steps 1 to 9 of R151, which `configure` and `deconfigure` share. -/
def configureWith (c : VccConfig) (s : State) : Host.Outcome State Fault Refusal :=
  withDevice s fun d =>
    match validate c with
    | .error info => raiseInvalidArgument info s
    | .ok v => endCommand ((configureWrites d.base v s).andThen fun oor s => .done (.outOfRange oor) s)

/-- The default Config (10_state.md R30) for a pair. -/
def defaultConfig (pol : Fin 2) (channel : Fin 10) : VccConfig where
  sampleRate := Config.defaultSampleRate
  pol := BitVec.ofNat 32 pol.val
  channel := BitVec.ofNat 32 channel.val
  inputFrameSize := Config.defaultInputFrameSize
  gain := .real unityGain

/-- What `validate` answers for `defaultConfig`: it always passes (10_state.md R30; `Laws.validate_defaultConfig`). -/
def defaultValid (pol : Fin 2) (channel : Fin 10) : ValidConfig where
  sampleRate := Config.defaultSampleRate
  inputFrameSize := Config.defaultInputFrameSize
  channel := channel
  pol := pol
  gain := unityGain

/-- The pairs of `recover` in loop order: `pol` outer, `channel` inner, both ascending (42_device_ops.md R153). -/
def recoverPairs : List (Fin 2 × Fin 10) :=
  (List.finRange 2).flatMap fun pol => (List.finRange 10).map fun channel => (pol, channel)

/-- The loop of R153 over the pairs that are left. -/
def recoverLoop (base : Nat) : List (Fin 2 × Fin 10) → State → BusResult Unit
  | [], s => .done () s
  | (pol, channel) :: rest, s =>
    (configureWrites base (defaultValid pol channel) s).andThen fun _ s => recoverLoop base rest s

/-! ## The reads of status, 42_device_ops.md R156 -/

/-- Lines 2 to 5 over the indices that are left: read, unpack, decode. -/
def statusLoop (base : Nat) : List (Fin 20) → State → BusResult (List Gain)
  | [], s => .done [] s
  | i :: rest, s =>
    (busRead base (regAddr base i) s).andThen fun w s =>
      (statusLoop base rest s).andThen fun gains s => .done (decodeWord w :: gains) s

/-- Lines 2 to 8: the twenty `FS` registers by ascending index, then `FC`. -/
def statusReads (base : Nat) (s : State) : BusResult Status :=
  (statusLoop base (List.finRange 20) s).andThen fun gains s =>
    (busRead base (fcAddr base) s).andThen fun f s =>
      .done ⟨sampleRateOf f, Config.channelsOut, Config.numPol, gains⟩ s

/-! ## The reset event, 70_reset_and_hazards.md R210, R211 -/

/-- Each of the 21 registers takes a fresh draw (10_state.md R33); `BASE` and `NAME` stay, and no trace is left. -/
def hardwareReset (s : State) : State :=
  { s with
    fc := Config.resetDraw s.drawCount
    fs := Vector.ofFn fun i : Fin 20 => Config.resetDraw (s.drawCount + 1 + i.val)
    drawCount := s.drawCount + 21 }

end Sys2Proof.Machine
end

