-- ==== Sys2Proof/Machine/DeviceCommands.lean ====
section
/-! DEFINITION. The device commands (42_device_ops.md). -/

namespace Sys2Proof.Machine

/-- CONSTRUCT, 42_device_ops.md R150: binds `NAME` and `BASE` once; no transaction, no register changes. -/
def execConstruct (name : List Byte) (baseAddress : Nat) (s : State) : Host.Outcome State Fault Refusal :=
  match s.device with
  | some _ => .refused .alreadyConstructed
  | none =>
    if validBase baseAddress then reply (.ok .none) { s with device := some ⟨name, baseAddress⟩ }
    else .refused .invalidBase

/-- CONFIGURE, 42_device_ops.md R151. -/
def execConfigure (config : VccConfig) (s : State) : Host.Outcome State Fault Refusal :=
  configureWith config s

/-- DECONFIGURE, 42_device_ops.md R152: the gain is forced to 1.0 before validation. -/
def execDeconfigure (config : VccConfig) (s : State) : Host.Outcome State Fault Refusal :=
  configureWith { config with gain := .real unityGain } s

/-- RECOVER, 42_device_ops.md R153: the default Config for every pair; its result is always false. -/
def execRecover (s : State) : Host.Outcome State Fault Refusal :=
  withDevice s fun d =>
    endCommand ((recoverLoop d.base recoverPairs s).andThen fun _ s => .done (.outOfRange false) s)

/-- START, 42_device_ops.md R154: inert. -/
def execStart (s : State) : Host.Outcome State Fault Refusal :=
  withDevice s fun _ => reply (.ok .none) s

/-- STOP, 42_device_ops.md R155: inert; `force` is accepted and not read. -/
def execStop (_force : Bool) (s : State) : Host.Outcome State Fault Refusal :=
  withDevice s fun _ => reply (.ok .none) s

/-- STATUS, 42_device_ops.md R156: 21 reads; `clear` is accepted and not read. -/
def execStatus (_clear : Bool) (s : State) : Host.Outcome State Fault Refusal :=
  withDevice s fun d => endCommand ((statusReads d.base s).andThen fun st s => .done (.status st) s)

end Sys2Proof.Machine
end

