-- ==== Sys2Proof/Machine/RegisterAccess.lean ====
section
/-! DEFINITION. Raw register access (40_register_access.md). -/

namespace Sys2Proof.Machine

/-- REGISTER_WRITE, 40_register_access.md R110: one unconditional write to an absolute address. -/
def execRegisterWrite (addr : Nat) (value : Word) (s : State) : Host.Outcome State Fault Refusal :=
  withDevice s fun d => endCommand ((busWrite d.base addr value s).andThen fun _ s => .done .none s)

/-- REGISTER_READ, 40_register_access.md R111: one unconditional read; the word is not masked. -/
def execRegisterRead (addr : Nat) (s : State) : Host.Outcome State Fault Refusal :=
  withDevice s fun d => endCommand ((busRead d.base addr s).andThen fun w s => .done (.word w) s)

end Sys2Proof.Machine
end

