-- ==== Sys2Proof/Machine/Units.lean ====
section
/-! DEFINITION. The eight combinational units as instructions (30_encoding.md R89; log entry 1): each evaluates its
function on the operands given and returns the value. No register, no transaction, no Device is needed, but for
REG_ADDR, which reads `BASE`. -/

namespace Sys2Proof.Machine

/-- ENCODE_GAIN, 41_gain_codec.md R121; used on its own it raises `InvalidArgument(gain)` (60_exceptions.md R181). -/
def execEncodeGain (gain : Gain) (s : State) : Host.Outcome State Fault Refusal :=
  match encodeGain gain with
  | .error info => raiseInvalidArgument info s
  | .ok e => reply (.ok (.encoded e)) s

/-- DECODE_GAIN, 41_gain_codec.md R122. -/
def execDecodeGain (shift : BitVec 4) (scale : BitVec 16) (s : State) : Host.Outcome State Fault Refusal :=
  reply (.ok (.gain (decodeGain shift scale))) s

/-- PACK, 41_gain_codec.md R123. -/
def execPack (shift scale : Nat) (s : State) : Host.Outcome State Fault Refusal :=
  reply (.ok (.word (pack shift scale))) s

/-- UNPACK, 41_gain_codec.md R124. -/
def execUnpack (word : Word) (s : State) : Host.Outcome State Fault Refusal :=
  reply (.ok (.fields (unpack word).1 (unpack word).2)) s

/-- FRAME_COUNT_OF, 41_gain_codec.md R125. A zero divisor is outside its domain; on its own the unit answers what the
check in front of it answers, `InvalidArgument(input_frame_size)` (42_device_ops.md R157 line 3; log entry 17). -/
def execFrameCountOf (sampleRate inputFrameSize : Word) (s : State) : Host.Outcome State Fault Refusal :=
  if inputFrameSize = 0 then raiseInvalidArgument .inputFrameSize s
  else reply (.ok (.word (frameCountOf sampleRate inputFrameSize))) s

/-- SAMPLE_RATE_OF, 41_gain_codec.md R126. -/
def execSampleRateOf (frameCount : Word) (s : State) : Host.Outcome State Fault Refusal :=
  reply (.ok (.word (sampleRateOf frameCount))) s

/-- REG_INDEX, 30_encoding.md R84. -/
def execRegIndex (channel : Fin 10) (pol : Fin 2) (s : State) : Host.Outcome State Fault Refusal :=
  reply (.ok (.index (regIndex channel pol))) s

/-- REG_ADDR, 30_encoding.md R85: there is no `BASE` before `construct`. -/
def execRegAddr (index : Fin 20) (s : State) : Host.Outcome State Fault Refusal :=
  withDevice s fun d => reply (.ok (.address (regAddr d.base index))) s

end Sys2Proof.Machine
end

