-- ==== Sys2Proof/Machine/Dispatch.lean ====
section
/-! DEFINITION. One arm per instruction. -/

namespace Sys2Proof.Machine

def exec (i : Instr) (s : State) : Host.Outcome State Fault Refusal :=
  match i with
  | .construct name baseAddress => Sys2Proof.Machine.execConstruct name baseAddress s
  | .registerWrite addr value => Sys2Proof.Machine.execRegisterWrite addr value s
  | .registerRead addr => Sys2Proof.Machine.execRegisterRead addr s
  | .recover => Sys2Proof.Machine.execRecover s
  | .configure config => Sys2Proof.Machine.execConfigure config s
  | .start => Sys2Proof.Machine.execStart s
  | .stop force => Sys2Proof.Machine.execStop force s
  | .deconfigure config => Sys2Proof.Machine.execDeconfigure config s
  | .status clear => Sys2Proof.Machine.execStatus clear s
  | .encodeGain gain => Sys2Proof.Machine.execEncodeGain gain s
  | .decodeGain shift scale => Sys2Proof.Machine.execDecodeGain shift scale s
  | .pack shift scale => Sys2Proof.Machine.execPack shift scale s
  | .unpack word => Sys2Proof.Machine.execUnpack word s
  | .frameCountOf sampleRate inputFrameSize => Sys2Proof.Machine.execFrameCountOf sampleRate inputFrameSize s
  | .sampleRateOf frameCount => Sys2Proof.Machine.execSampleRateOf frameCount s
  | .regIndex channel pol => Sys2Proof.Machine.execRegIndex channel pol s
  | .regAddr index => Sys2Proof.Machine.execRegAddr index s

end Sys2Proof.Machine
end

