-- ==== Sys2Proof/WellFormed.lean ====
section
/-! DEFINITION. Which instructions the byte form can carry. Every bound is one of the model's own byte form (log
entries 2, 3 and 15); the spec bounds none of these operands, and no meaning reads this check. -/

namespace Sys2Proof

/-- The integers fit the 128-bit fields of the byte form. -/
def Surd.fits (x : Surd) : Bool :=
  decide (-(2 ^ 127) ≤ x.rat) && decide (x.rat < 2 ^ 127) && decide (-(2 ^ 127) ≤ x.root) &&
    decide (x.root < 2 ^ 127) && decide (x.denPred < 2 ^ 128)

/-- A binary gain always fits its field, a name has 64 bits. -/
def Gain.fits : Gain → Bool
  | .real (.surd x) => x.fits
  | .real (.other name) => decide (name < 2 ^ 64)
  | .binary32 _ => true
  | .binary64 _ => true

/-- An instruction the byte form can carry. -/
def Instr.wellFormed : Instr → Bool
  | .construct name baseAddress => decide (name.length < 256) && decide (baseAddress < 2 ^ 64)
  | .registerWrite addr _ => decide (addr < 2 ^ 64)
  | .registerRead addr => decide (addr < 2 ^ 64)
  | .recover => true
  | .configure config => config.gain.fits
  | .start => true
  | .stop _ => true
  | .deconfigure config => config.gain.fits
  | .status _ => true
  | .encodeGain gain => gain.fits
  | .decodeGain _ _ => true
  | .pack shift scale => decide (shift < 2 ^ 36) && decide (scale < 2 ^ 48)
  | .unpack _ => true
  | .frameCountOf _ _ => true
  | .sampleRateOf _ => true
  | .regIndex _ _ => true
  | .regAddr _ => true

end Sys2Proof
end

