-- ==== Sys2Proof/Decode.lean ====
section
/-! DEFINITION. The byte form of instructions: the decoder, total on any bytes and rejecting by name, and after it the
encoder. The opcodes and the order of the Config record are the spec's labels (30_encoding.md R86, R88); everything
else of the form is the model's (log entries 2 and 3), because the source gives commands no binary encoding (R80).

A `cmd` frame: byte 0 holds the opcode in bits 3..0; bits 7..4 are the gain tag of a Config record and else zero. The
operands follow, each least significant byte first.
A `unit` frame: bytes 0..3 hold the row's word of opcode_table.json, byte 4 the selector of the row, and after it come
the operands that the row's word does not carry. -/

namespace Sys2Proof

/-! ## Bytes and numbers -/

/-- The low `n` bytes of `v`, least significant first. -/
def leBytes : Nat → Nat → List Byte
  | 0, _ => []
  | n + 1, v => BitVec.ofNat 8 v :: leBytes n (v / 256)

/-- The number whose bytes these are, least significant first. -/
def leValue : List Byte → Nat
  | [] => 0
  | b :: bs => b.toNat + 256 * leValue bs

/-- Reads a field of `n` bytes and goes on with its value and the bytes after it. -/
def withField {α : Type} (n : Nat) (bs : List Byte)
    (k : Nat → List Byte → Except DecodeError α) : Except DecodeError α :=
  if bs.length < n then .error .truncated else k (leValue (bs.take n)) (bs.drop n)

/-- A 128-bit two's complement integer. -/
def intOfField (n : Nat) : Int := (BitVec.ofNat 128 n).toInt

/-- The 128-bit two's complement field of an integer. -/
def fieldOfInt (z : Int) : Nat := (BitVec.ofInt 128 z).toNat

/-! ## Operands -/

/-- A Boolean operand: one byte, 0 or 1. -/
def withBool {α : Type} (bs : List Byte) (k : Bool → List Byte → Except DecodeError α) :
    Except DecodeError α :=
  withField 1 bs fun b rest =>
    if b = 0 then k false rest else if b = 1 then k true rest else .error .badBool

/-- A gain operand of the format its tag names: 0 `binary64`, 1 `binary32`, 2 a `real` number
written out, 3 the name of another one. -/
def withGain {α : Type} (tag : Nat) (bs : List Byte)
    (k : Gain → List Byte → Except DecodeError α) : Except DecodeError α :=
  match tag with
  | 0 => withField 8 bs fun v rest => k (.binary64 (BitVec.ofNat 64 v)) rest
  | 1 => withField 4 bs fun v rest => k (.binary32 (BitVec.ofNat 32 v)) rest
  | 2 => withField 16 bs fun rat rest => withField 16 rest fun root rest =>
      withField 16 rest fun denPred rest =>
        k (.real (.surd ⟨intOfField rat, intOfField root, denPred⟩)) rest
  | 3 => withField 8 bs fun name rest => k (.real (.other name)) rest
  | _ => .error .badGainTag

/-- A Config record: `gain ++ input_frame_size ++ channel ++ pol ++ sample_rate`, most significant first
(30_encoding.md R86), so `sample_rate` comes first here. -/
def withConfig {α : Type} (tag : Nat) (bs : List Byte)
    (k : VccConfig → List Byte → Except DecodeError α) : Except DecodeError α :=
  withField 4 bs fun sampleRate rest => withField 4 rest fun pol rest =>
    withField 4 rest fun channel rest => withField 4 rest fun inputFrameSize rest =>
      withGain tag rest fun gain rest =>
        k ⟨BitVec.ofNat 32 sampleRate, BitVec.ofNat 32 pol, BitVec.ofNat 32 channel,
          BitVec.ofNat 32 inputFrameSize, gain⟩ rest

/-- The end of an instruction: only zero bytes may follow (they are the padding of `decodeTableWord`). -/
def finish (i : Instr) (rest : List Byte) : Except DecodeError Instr :=
  if rest.all (· == 0) then .ok i else .error .trailingBytes

/-- Bits 7..4 of byte 0, which only a Config record uses. -/
def noVariant (variant : Nat) (k : Except DecodeError Instr) : Except DecodeError Instr :=
  if variant = 0 then k else .error .unusedBits

/-! ## The decoder -/

/-- A command from its opcode (30_encoding.md R88), the upper half of byte 0 and the bytes after it. -/
def decodeCommand (opcode variant : Nat) (bs : List Byte) : Except DecodeError Instr :=
  match opcode with
  | 0x0 => noVariant variant <| withField 8 bs fun base rest => withField 1 rest fun n rest =>
      if rest.length < n then .error .truncated
      else finish (.construct (rest.take n) base) (rest.drop n)
  | 0x1 => noVariant variant <| withField 8 bs fun addr rest => withField 4 rest fun v rest =>
      finish (.registerWrite addr (BitVec.ofNat 32 v)) rest
  | 0x2 => noVariant variant <| withField 8 bs fun addr rest => finish (.registerRead addr) rest
  | 0x3 => noVariant variant <| finish .recover bs
  | 0x4 => withConfig variant bs fun c rest => finish (.configure c) rest
  | 0x5 => noVariant variant <| finish .start bs
  | 0x6 => noVariant variant <| withBool bs fun force rest => finish (.stop force) rest
  | 0x7 => withConfig variant bs fun c rest => finish (.deconfigure c) rest
  | 0x8 => noVariant variant <| withBool bs fun clear rest => finish (.status clear) rest
  | _ => .error .unassignedOpcode

/-- A unit from its word, its selector and the bytes after them. The word of PACK, DECODE_GAIN, UNPACK and
SAMPLE_RATE_OF is what the unit consumes or what its fields are; that of REG_INDEX and REG_ADDR determines the operands
(30_encoding.md R84, R85); ENCODE_GAIN's and FRAME_COUNT_OF's carries no operand and is zero. -/
def decodeUnit (word selector : Nat) (bs : List Byte) : Except DecodeError Instr :=
  match selector with
  | 0 => withField 4 bs fun shiftHigh rest => withField 4 rest fun scaleHigh rest =>
      if word < 2 ^ 20 then
        finish (.pack (word % 16 + 16 * shiftHigh) (word / 16 + 65536 * scaleHigh)) rest
      else .error .reservedBits
  | 1 => if word = 0 then
        withField 1 bs fun tag rest => withGain tag rest fun gain rest => finish (.encodeGain gain) rest
      else .error .reservedBits
  | 2 => finish (.decodeGain (BitVec.ofNat 4 word) (BitVec.ofNat 16 (word / 16))) bs
  | 3 => finish (.unpack (BitVec.ofNat 32 word)) bs
  | 4 => if word = 0 then
        withField 4 bs fun rate rest => withField 4 rest fun size rest =>
          finish (.frameCountOf (BitVec.ofNat 32 rate) (BitVec.ofNat 32 size)) rest
      else .error .reservedBits
  | 5 => finish (.sampleRateOf (BitVec.ofNat 32 word)) bs
  | 6 => if word < 20 then finish (.regIndex (Fin.ofNat 10 word) (Fin.ofNat 2 (word / 10))) bs
      else .error .indexOutOfRange
  | 7 => if word % 4 = 0 ∧ 4 ≤ word ∧ word ≤ 80 then
        finish (.regAddr (Fin.ofNat 20 (word / 4 - 1))) bs
      else .error .indexOutOfRange
  | _ => .error .unassignedUnit

/-- The decoder: the instruction a presented frame stands for, or the name of what is wrong with it. -/
def decode (f : Frame) : Except DecodeError Instr :=
  match f.format with
  | .cmd => withField 1 f.bytes fun b rest => decodeCommand (b % 16) (b / 16) rest
  | .unit => withField 4 f.bytes fun word rest => withField 1 rest fun selector rest =>
      decodeUnit word selector rest

/-! ## The encoder -/

/-- The tag of a gain's format. -/
def gainTag : Gain → Nat
  | .binary64 _ => 0
  | .binary32 _ => 1
  | .real (.surd _) => 2
  | .real (.other _) => 3

/-- The bytes of a gain operand. -/
def gainBytes : Gain → List Byte
  | .binary64 bits => leBytes 8 bits.toNat
  | .binary32 bits => leBytes 4 bits.toNat
  | .real (.surd x) => leBytes 16 (fieldOfInt x.rat) ++ leBytes 16 (fieldOfInt x.root) ++ leBytes 16 x.denPred
  | .real (.other name) => leBytes 8 name

/-- The bytes of a Config record (30_encoding.md R86). -/
def configBytes (c : VccConfig) : List Byte :=
  leBytes 4 c.sampleRate.toNat ++ leBytes 4 c.pol.toNat ++ leBytes 4 c.channel.toNat ++
    leBytes 4 c.inputFrameSize.toNat ++ gainBytes c.gain

/-- A Boolean operand as a byte. -/
def boolByte (b : Bool) : List Byte := leBytes 1 b.toNat

/-- A command frame: the opcode, the upper half of byte 0, the operands. -/
def cmdFrame (opcode variant : Nat) (operands : List Byte) : Frame :=
  ⟨.cmd, leBytes 1 (opcode + 16 * variant) ++ operands⟩

/-- A unit frame: the row's word, its selector, the operands the word does not carry. -/
def unitFrame (word selector : Nat) (operands : List Byte) : Frame :=
  ⟨.unit, leBytes 4 word ++ leBytes 1 selector ++ operands⟩

/-- The frame of an instruction. -/
def encode : Instr → Frame
  | .construct name base => cmdFrame 0x0 0 (leBytes 8 base ++ leBytes 1 name.length ++ name)
  | .registerWrite addr value => cmdFrame 0x1 0 (leBytes 8 addr ++ leBytes 4 value.toNat)
  | .registerRead addr => cmdFrame 0x2 0 (leBytes 8 addr)
  | .recover => cmdFrame 0x3 0 []
  | .configure c => cmdFrame 0x4 (gainTag c.gain) (configBytes c)
  | .start => cmdFrame 0x5 0 []
  | .stop force => cmdFrame 0x6 0 (boolByte force)
  | .deconfigure c => cmdFrame 0x7 (gainTag c.gain) (configBytes c)
  | .status clear => cmdFrame 0x8 0 (boolByte clear)
  | .pack shift scale => unitFrame (shift % 16 + 16 * (scale % 65536)) 0
      (leBytes 4 (shift / 16) ++ leBytes 4 (scale / 65536))
  | .encodeGain gain => unitFrame 0 1 (leBytes 1 (gainTag gain) ++ gainBytes gain)
  | .decodeGain shift scale => unitFrame (shift.toNat + 16 * scale.toNat) 2 []
  | .unpack word => unitFrame word.toNat 3 []
  | .frameCountOf rate size => unitFrame 0 4 (leBytes 4 rate.toNat ++ leBytes 4 size.toNat)
  | .sampleRateOf frameCount => unitFrame frameCount.toNat 5 []
  | .regIndex channel pol => unitFrame (channel.val + 10 * pol.val) 6 []
  | .regAddr index => unitFrame (4 * (index.val + 1)) 7 []

/-! ## The table's words -/

/-- The bytes of the longest instruction (CONSTRUCT with a name of 255 bytes). -/
def longestBytes : Nat := 265

/-- The frame whose low `nbits` bits are `w` and whose other bits are zero. A row of at most 8 bits is a command, a
longer one a unit (log entry 3). -/
def tableFrame (nbits w : Nat) : Frame :=
  ⟨if nbits ≤ 8 then .cmd else .unit, leBytes longestBytes (w % 2 ^ nbits)⟩

/-- The instruction the decoder reads from a word of opcode_table.json. -/
def decodeTableWord (nbits w : Nat) : Option Instr :=
  match decode (tableFrame nbits w) with
  | .ok i => some i
  | .error _ => none

end Sys2Proof
end

