-- ==== Sys2Proof/Machine/Fetch.lean ====
section
/-! DEFINITION. Taking the next thing presented, and presenting a word of the table. -/

namespace Sys2Proof.Machine

/-- What the next thing presented is. -/
inductive Fetched where
  | nothing
  | reset
  | undecodable (why : DecodeError)
  | instruction (i : Instr)
  deriving DecidableEq, Repr

/-- The next thing presented (log entry 4). -/
def fetch (s : State) : Fetched :=
  match s.pending with
  | [] => .nothing
  | .reset :: _ => .reset
  | .request f :: _ =>
    match decode f with
    | .error why => .undecodable why
    | .ok i => .instruction i

/-- The state once it has been taken. -/
def taken (s : State) : State := { s with pending := s.pending.tail }

/-- With nothing presented the block does nothing (log entry 5). -/
def idle (s : State) : State := s

/-- The Device that the launch binds where none is constructed: no name, base 0 (log entry 4). -/
def launchDevice : Device := ⟨[], 0⟩

/-- Whether an instruction is CONSTRUCT, which runs only while no Device is constructed. -/
def isConstruct : Option Instr → Bool
  | some (.construct _ _) => true
  | _ => false

/-- Presents a word of opcode_table.json as the next request. A run is one `construct` and then commands (00_scope.md
R13), so for anything but CONSTRUCT a Device is bound first where there is none (log entry 4). -/
def present (s : State) (nbits w : Nat) : State :=
  { s with
    pending := .request (tableFrame nbits w) :: s.pending
    device := if isConstruct (decodeTableWord nbits w) then s.device else some (s.device.getD launchDevice) }

end Sys2Proof.Machine
end

