-- ==== Sys2Proof/Machine/Step.lean ====
section
/-! DEFINITION. One step of the machine: the next thing presented is taken and run to its end (42_device_ops.md R159). -/

namespace Sys2Proof.Machine

/-- A reset event gives every register a draw (70_reset_and_hazards.md R210); a request is run; bytes that are no
instruction are refused (30_encoding.md R90). -/
def step (s : State) : Host.Outcome State Fault Refusal :=
  match fetch s with
  | .nothing => .next (idle s)
  | .reset => .next (hardwareReset (taken s))
  | .undecodable why => .refused (.undecodable why)
  | .instruction i => exec i (taken s)

/-- Places a word of opcode_table.json where `step` takes its next instruction. -/
def State.withFetchWord (s : State) (nbits w : Nat) : State := present s nbits w

end Sys2Proof.Machine
end

