-- ==== Sys2Proof/Safety.lean ====
section
/-! DEFINITION. The terms of the claims: the launch premises of 92_eei_decisions.md, the invariants, and the exact real
numbers of 41_gain_codec.md, in which the codec's rules are written. No definition of the machine uses this file. -/

namespace Sys2Proof.Machine

/-! ## Premises -/

/-- The first `n` outcomes of the script are `ok`: what a command of `n` transactions needs of `BusHealthy`
(20_memory.md R66). A script that is used up answers `ok`. -/
abbrev OutcomesOk (n : Nat) (s : State) : Prop := ∀ o ∈ s.busScript.take n, o = .ok

/-- Transaction number `k` of the next command fails, those before it complete (20_memory.md R66). -/
abbrev FailsAt (k : Nat) (s : State) : Prop := OutcomesOk k s ∧ s.busScript[k]? = some .fault

/-- The launch premise `BusHealthy`. -/
abbrev BusHealthy (s : State) : Prop := ∀ o ∈ s.busScript, o = .ok

/-- The launch premise `NoSpuriousReset`: no reset event is presented. -/
abbrev NoSpuriousReset (s : State) : Prop := Input.reset ∉ s.pending

/-- The premise `NoWrap` on a frame count (41_gain_codec.md R126). -/
abbrev NoWrap (frameCount : Word) : Prop := frameCount.toNat ≤ 238609294

/-- A run so far without a `DeviceFault` (60_exceptions.md R183). -/
abbrev Unmarked (s : State) : Prop := s.faultMark = false

/-! ## Invariants -/

/-- The constraint on `BASE` (00_scope.md R8): word aligned, the window inside the address space. -/
def DeviceValid (s : State) : Prop :=
  ∀ d, s.device = some d → d.base % 4 = 0 ∧ d.base + 0x54 ≤ 2 ^ Config.addrW

/-- A normalised pair, one the encoder can produce (41_gain_codec.md R132). -/
abbrev Normalised (shift : BitVec 4) (scale : BitVec 16) : Prop :=
  shift.toNat = 0 ∨ (1 ≤ shift.toNat ∧ shift.toNat ≤ 14 ∧ 32767 ≤ scale.toNat)

/-- A canonical pair, one that decode and encode return (41_gain_codec.md R132). -/
abbrev Canonical (shift : BitVec 4) (scale : BitVec 16) : Prop :=
  (shift.toNat = 0 ∧ 1 ≤ scale.toNat) ∨ (1 ≤ shift.toNat ∧ shift.toNat ≤ 14 ∧ 32768 ≤ scale.toNat)

/-- What R34 of 10_state.md says of a register that only the codec has written since reset. -/
abbrev CodecWord (w : Word) : Prop :=
  w.toNat < 2 ^ 20 ∧ w.toNat % 16 ≤ 14 ∧
    (w.toNat % 16 = 0 ∨ 32767 ≤ w.toNat / 16)

/-! ## The exact reals of 41_gain_codec.md -/

/-- `C_NORM`, 41_gain_codec.md R120. -/
noncomputable def cNorm : ℝ := 0.9475 * Real.sqrt 20

/-- The real number a `Surd` stands for. -/
noncomputable def surdReal (x : Surd) : ℝ := ((x.rat : ℝ) + (x.root : ℝ) * Real.sqrt 5) / (x.den : ℝ)

/-- The real number a gain of the format `real` is (00_scope.md R10). -/
noncomputable def realValue : RealNumber → ℝ
  | .surd x => surdReal x
  | .other name =>
    match Config.otherReal name with
    | none => 0
    | some r => r.value

/-- `scale * 2^shift / (65535 * C_NORM)`, 41_gain_codec.md R122. -/
noncomputable def decodedReal (shift : BitVec 4) (scale : BitVec 16) : ℝ :=
  (scale.toNat : ℝ) * 2 ^ shift.toNat / (65535 * cNorm)

end Sys2Proof.Machine
end

