-- ==== Sys2Proof/Certificates/Slice0/Obligations.lean ====
section
/-! DEFINITION. The statements for the provers. Where a statement gives the whole next state as an update of the old
one, every field it does not name is unchanged: that is the frame. A clause that rests on a choice of the model or on a
decision the spec marks as its own names it. -/

open Sys2Proof Sys2Proof.Machine

/-! ## Encoding -/

/-- Decoding an encoded instruction gives it back, with every operand at every value the byte form carries. The byte
form is the model's choice (log entries 2 and 3) around the labels of 30_encoding.md R86 and R88 (D24). -/
def Obligations.DecodeOfEncodeIsIdentity : Prop :=
  ∀ i : Instr, i.wellFormed = true → decode (encode i) = .ok i

/-- Nothing the decoder answers lies outside the byte form (log entries 2 and 3). -/
def Obligations.DecodedInstructionsAreWellFormed : Prop :=
  ∀ (f : Frame) (i : Instr), decode f = .ok i → i.wellFormed = true

/-- Opcodes 0x9 to 0xF are not commands: a decoder answers "invalid", nothing executes (30_encoding.md R90, the spec's
own numbering D24). -/
def Obligations.UnassignedOpcodesAreRefused : Prop :=
  ∀ (s : State) (b : Byte) (bytes : List Byte) (rest : List Input),
    9 ≤ b.toNat % 16 → s.pending = .request ⟨.cmd, b :: bytes⟩ :: rest →
      step s = .refused (.undecodable .unassignedOpcode)

/-- Whatever the decoder rejects is refused under the decoder's name for it, and nothing executes (30_encoding.md R90);
the names and the byte form are the model's (log entries 2 and 3). -/
def Obligations.UndecodableRequestsAreRefused : Prop :=
  ∀ (s : State) (f : Frame) (rest : List Input) (why : DecodeError),
    s.pending = .request f :: rest → decode f = .error why → step s = .refused (.undecodable why)

/-- Words written out from 30_encoding.md R82, R85, R86, R88 and program P1 decode to what they stand for. -/
def Obligations.SpecWordsDecode : Prop :=
  decode ⟨.cmd, [0x2, 0x10, 0x10, 0, 0, 0, 0, 0, 0]⟩ = .ok (.registerRead 0x1010) ∧
  decode ⟨.cmd, [0x4, 0x80, 0xA8, 0x12, 0x01, 0, 0, 0, 0, 3, 0, 0, 0, 0x12, 0, 0, 0, 0, 0, 0, 0, 0, 0, 0, 0x40]⟩ =
    .ok (.configure ⟨0x0112A880, 0, 3, 18, .binary64 0x4000000000000000⟩) ∧
  decode ⟨.cmd, [0x5]⟩ = .ok .start ∧
  decode ⟨.unit, [0x74, 0x79, 0x08, 0, 3]⟩ = .ok (.unpack 0x00087974) ∧
  decode ⟨.unit, [0x40, 0, 0, 0, 7]⟩ = .ok (.regAddr 15)

/-! ## The step -/

/-- A step runs the decoded instruction at the state from which the request has been taken, and adds nothing
(42_device_ops.md R159: one command is one step). -/
def Obligations.StepRunsTheDecodedInstruction : Prop :=
  ∀ (s : State) (f : Frame) (rest : List Input) (i : Instr),
    s.pending = .request f :: rest → decode f = .ok i → step s = exec i { s with pending := rest }

/-- With nothing presented a step changes nothing: the model's choice (log entry 5). -/
def Obligations.StepWithNothingPresentedIsIdle : Prop :=
  ∀ s : State, s.pending = [] → step s = .next s

/-- The reset event: each of the 21 registers takes a fresh draw; identity and trace stay (70_reset_and_hazards.md R210,
R211; 10_state.md R33; D12). The draws are free values (log entry 8). -/
def Obligations.ResetEventDrawsEveryRegister : Prop :=
  ∀ (s : State) (rest : List Input), s.pending = .reset :: rest →
    ∃ t, step s = .next t ∧
      t.fc = Config.resetDraw s.drawCount ∧
      (∀ i : Fin 20, t.fs[i] = Config.resetDraw (s.drawCount + 1 + i.val)) ∧
      t.drawCount = s.drawCount + 21 ∧ t.pending = rest ∧ t.device = s.device ∧ t.busTrace = s.busTrace ∧
      t.result = s.result ∧ t.faultMark = s.faultMark ∧ t.busScript = s.busScript

/-- The state after reset: no Device, nothing presented, an empty trace; the zeros are the model's choice (log entries 6
and 7), the spec gives no reset value (10_state.md R33). -/
def Obligations.ResetStateIsAsLogged : Prop :=
  State.reset.fc = 0 ∧ (∀ i : Fin 20, State.reset.fs[i] = 0) ∧ State.reset.device = none ∧
    State.reset.result = none ∧ State.reset.busTrace = [] ∧ State.reset.faultMark = false ∧
    State.reset.drawCount = 0 ∧ State.reset.busScript = [] ∧ State.reset.pending = []

/-! ## CONSTRUCT -/

/-- `construct` binds the identity and changes no register and no trace (42_device_ops.md R150, D27). -/
def Obligations.ConstructBindsTheIdentity : Prop :=
  ∀ (s : State) (name : List Byte) (base : Nat), s.device = none → base % 4 = 0 →
    base + 0x54 ≤ 2 ^ Config.addrW →
      exec (.construct name base) s =
        .next { s with device := some ⟨name, base⟩, result := some (.ok .none) }

/-- A second `construct` is refused, and so is a base that is misaligned or whose window leaves the address space
(42_device_ops.md R150, D27). -/
def Obligations.ConstructIsRefusedTwiceOrOnBadBase : Prop :=
  ∀ (s : State) (name : List Byte) (base : Nat),
    (s.device ≠ none → exec (.construct name base) s = .refused .alreadyConstructed) ∧
    (s.device = none → (base % 4 ≠ 0 ∨ 2 ^ Config.addrW < base + 0x54) →
      exec (.construct name base) s = .refused .invalidBase)

/-- Before `construct` every other command is refused (42_device_ops.md R150, D27), and so is REG_ADDR, which needs
`BASE` (log entry 1). -/
def Obligations.CommandsAreRefusedBeforeConstruct : Prop :=
  ∀ s : State, s.device = none →
    (∀ a v, exec (.registerWrite a v) s = .refused .notConstructed) ∧
    (∀ a, exec (.registerRead a) s = .refused .notConstructed) ∧
    exec .recover s = .refused .notConstructed ∧
    (∀ c, exec (.configure c) s = .refused .notConstructed) ∧
    exec .start s = .refused .notConstructed ∧
    (∀ f, exec (.stop f) s = .refused .notConstructed) ∧
    (∀ c, exec (.deconfigure c) s = .refused .notConstructed) ∧
    (∀ c, exec (.status c) s = .refused .notConstructed) ∧
    (∀ i, exec (.regAddr i) s = .refused .notConstructed)

/-! ## Raw register access -/

/-- `register_write` to `FC` stores all 32 bits, one transaction (40_register_access.md R110, 20_memory.md R55). -/
def Obligations.RegisterWriteStoresFrameCount : Prop :=
  ∀ (s : State) (d : Device) (v : Word), s.device = some d → d.base % 4 = 0 → OutcomesOk 1 s →
    exec (.registerWrite d.base v) s =
      .next { s with
        fc := v
        busTrace := s.busTrace ++ [⟨.write, d.base, v⟩]
        busScript := s.busScript.drop 1
        result := some (.ok .none) }

/-- `register_write` of a word with zero reserved bits to `FS[i]` stores it exactly (10_state.md R24 (c)). -/
def Obligations.RegisterWriteStoresGainWord : Prop :=
  ∀ (s : State) (d : Device) (i : Fin 20) (v : Word), s.device = some d → d.base % 4 = 0 → OutcomesOk 1 s →
    v.toNat < 2 ^ 20 →
      exec (.registerWrite (d.base + 4 + 4 * i.val) v) s =
        .next { s with
          fs := s.fs.set i v
          busTrace := s.busTrace ++ [⟨.write, d.base + 4 + 4 * i.val, v⟩]
          busScript := s.busScript.drop 1
          result := some (.ok .none) }

/-- With non-zero reserved bits, bits 19..0 are stored as written and bits 31..20 hold a draw (10_state.md R24 (b), D10).
The draw is a free value (log entry 9). -/
def Obligations.RegisterWriteDrawsReservedBits : Prop :=
  ∀ (s : State) (d : Device) (i : Fin 20) (v w : Word), s.device = some d → d.base % 4 = 0 → OutcomesOk 1 s →
    2 ^ 20 ≤ v.toNat → w.toNat = (Config.reservedDraw s.drawCount).toNat * 2 ^ 20 + v.toNat % 2 ^ 20 →
      exec (.registerWrite (d.base + 4 + 4 * i.val) v) s =
        .next { s with
          fs := s.fs.set i w
          drawCount := s.drawCount + 1
          busTrace := s.busTrace ++ [⟨.write, d.base + 4 + 4 * i.val, v⟩]
          busScript := s.busScript.drop 1
          result := some (.ok .none) }

/-- `register_read` returns the whole word of the register and changes no register (40_register_access.md R111,
20_memory.md R56, D11). -/
def Obligations.RegisterReadReturnsTheWord : Prop :=
  ∀ (s : State) (d : Device), s.device = some d → d.base % 4 = 0 → OutcomesOk 1 s →
    (exec (.registerRead d.base) s =
      .next { s with
        busTrace := s.busTrace ++ [⟨.read, d.base, s.fc⟩]
        busScript := s.busScript.drop 1
        result := some (.ok (.word s.fc)) }) ∧
    ∀ i : Fin 20, exec (.registerRead (d.base + 4 + 4 * i.val)) s =
      .next { s with
        busTrace := s.busTrace ++ [⟨.read, d.base + 4 + 4 * i.val, s.fs[i]⟩]
        busScript := s.busScript.drop 1
        result := some (.ok (.word s.fs[i])) }

/-- An address that is misaligned or outside the window is refused, never answered (20_memory.md R57, D14, D15). Which
of the two refusals a doubly bad address gets is the model's choice (log entry 23). -/
def Obligations.RawAccessOutsideWindowIsRefused : Prop :=
  ∀ (s : State) (d : Device) (a : Nat) (v : Word), s.device = some d →
    (a % 4 ≠ 0 → exec (.registerWrite a v) s = .refused .misalignedAddress ∧
      exec (.registerRead a) s = .refused .misalignedAddress) ∧
    (a % 4 = 0 → (a < d.base ∨ d.base + 0x54 ≤ a) →
      exec (.registerWrite a v) s = .refused .addressOutsideWindow ∧
      exec (.registerRead a) s = .refused .addressOutsideWindow)

/-- The laws of raw access (40_register_access.md R112, derived there): a read after a write returns the written value,
or for reserved bits a word with the written low 20 bits; a read elsewhere returns what it returned before. -/
def Obligations.RawReadAfterWrite : Prop :=
  ∀ (s : State) (d : Device) (a : Nat) (v : Word), s.device = some d → d.base % 4 = 0 → OutcomesOk 2 s →
    a % 4 = 0 → d.base ≤ a → a < d.base + 0x54 →
      ∃ t, exec (.registerWrite a v) s = .next t ∧
        (∃ u w, exec (.registerRead a) t = .next u ∧ u.result = some (.ok (.word w)) ∧
          w.toNat % 2 ^ 20 = v.toNat % 2 ^ 20 ∧ (v.toNat < 2 ^ 20 ∨ a = d.base → w = v)) ∧
        ∀ b, b ≠ a → b % 4 = 0 → d.base ≤ b → b < d.base + 0x54 →
          ∃ u u' w, exec (.registerRead b) s = .next u ∧ exec (.registerRead b) t = .next u' ∧
            u.result = some (.ok (.word w)) ∧ u'.result = some (.ok (.word w))

/-- A write to one register changes no other register (10_state.md R35). -/
def Obligations.BusWriteChangesOneRegister : Prop :=
  ∀ (s : State) (base : Nat) (v : Word), base % 4 = 0 → OutcomesOk 1 s →
    (∃ t, busWrite base base v s = .done () t ∧ t.fs = s.fs) ∧
    ∀ i : Fin 20, ∃ t, busWrite base (base + 4 + 4 * i.val) v s = .done () t ∧ t.fc = s.fc ∧
      ∀ j : Fin 20, j ≠ i → t.fs[j] = s.fs[j]

/-- A failed raw access (20_memory.md R66, 60_exceptions.md R183, D21): where the platform detects it, `DeviceFault`
with nothing stored and no trace entry; where not, the run is refused. -/
def Obligations.FailedRawAccessStoresNothing : Prop :=
  ∀ (s : State) (d : Device) (a : Nat) (v : Word), s.device = some d → a % 4 = 0 → d.base ≤ a →
    a < d.base + 0x54 → FailsAt 0 s →
      (exec (.registerWrite a v) s =
        if Config.busFaultDetect then
          .next { s with
            busScript := s.busScript.drop 1, faultMark := true, result := some (.deviceFault a .write) }
        else .refused .undetectedBusFault) ∧
      exec (.registerRead a) s =
        if Config.busFaultDetect then
          .next { s with
            busScript := s.busScript.drop 1, faultMark := true, result := some (.deviceFault a .read) }
        else .refused .undetectedBusFault

/-! ## CONFIGURE and DECONFIGURE -/

/-- `configure` with valid operands writes `FC`, then the packed pair into the register of its (channel, pol), and
returns `out_of_range` (42_device_ops.md R151). The order of the writes is the spec's decision D17; the pair is the one
`EncodeGainFollowsExactReals` describes. -/
def Obligations.ConfigureWritesFrameCountThenGain : Prop :=
  ∀ (s : State) (d : Device) (c : VccConfig) (e : Encoded) (i : Fin 20) (fc w : Word),
    s.device = some d → d.base % 4 = 0 → OutcomesOk 2 s →
    c.channel.toNat < 10 → c.pol.toNat < 2 → c.inputFrameSize ≠ 0 → encodeGain c.gain = .ok e →
    i.val = c.channel.toNat + c.pol.toNat * 10 →
    fc.toNat = c.sampleRate.toNat / c.inputFrameSize.toNat →
    w.toNat = e.shift.toNat + 16 * e.scale.toNat →
      exec (.configure c) s =
        .next { s with
          fc := fc
          fs := s.fs.set i w
          busTrace := s.busTrace ++ [⟨.write, d.base, fc⟩, ⟨.write, d.base + 4 + 4 * i.val, w⟩]
          busScript := s.busScript.drop 2
          result := some (.ok (.outOfRange e.outOfRange)) }

/-- `deconfigure` is `configure` with gain 1.0: unity gain, word `0x00087973`, whatever gain the caller gave
(42_device_ops.md R152). The word rests on the spec's decisions D2 and D3 (41_gain_codec.md R134). -/
def Obligations.DeconfigureWritesUnityGain : Prop :=
  ∀ (s : State) (d : Device) (c : VccConfig) (i : Fin 20) (fc : Word),
    s.device = some d → d.base % 4 = 0 → OutcomesOk 2 s →
    c.channel.toNat < 10 → c.pol.toNat < 2 → c.inputFrameSize ≠ 0 →
    i.val = c.channel.toNat + c.pol.toNat * 10 →
    fc.toNat = c.sampleRate.toNat / c.inputFrameSize.toNat →
      exec (.deconfigure c) s =
        .next { s with
          fc := fc
          fs := s.fs.set i 0x00087973#32
          busTrace := s.busTrace ++
            [⟨.write, d.base, fc⟩, ⟨.write, d.base + 4 + 4 * i.val, 0x00087973#32⟩]
          busScript := s.busScript.drop 2
          result := some (.ok (.outOfRange false)) }

/-- A bad operand ends the command with `InvalidArgument`, and nothing at all but the result changes
(60_exceptions.md R181, R187). Which of several bad operands is named is the spec's decision D23. -/
def Obligations.BadOperandsChangeNothing : Prop :=
  ∀ (s : State) (c : VccConfig), s.device ≠ none →
    (10 ≤ c.channel.toNat →
      exec (.configure c) s = .next { s with result := some (.invalidArgument .channel) } ∧
      exec (.deconfigure c) s = .next { s with result := some (.invalidArgument .channel) }) ∧
    (c.channel.toNat < 10 → 2 ≤ c.pol.toNat →
      exec (.configure c) s = .next { s with result := some (.invalidArgument .pol) } ∧
      exec (.deconfigure c) s = .next { s with result := some (.invalidArgument .pol) }) ∧
    (c.channel.toNat < 10 → c.pol.toNat < 2 → c.inputFrameSize = 0 →
      exec (.configure c) s = .next { s with result := some (.invalidArgument .inputFrameSize) } ∧
      exec (.deconfigure c) s = .next { s with result := some (.invalidArgument .inputFrameSize) }) ∧
    (c.channel.toNat < 10 → c.pol.toNat < 2 → c.inputFrameSize ≠ 0 → encodeGain c.gain = .error .gain →
      exec (.configure c) s = .next { s with result := some (.invalidArgument .gain) })

/-- Where the first or the second write of `configure` or `deconfigure` fails, the command stops there: earlier writes
stand, later ones are not issued (60_exceptions.md R183, 42_device_ops.md R151, R152, D17, D21). Only `configure` looks
at the gain. -/
def Obligations.ConfigureStopsAtFailedWrite : Prop :=
  ∀ (s : State) (d : Device) (c : VccConfig) (i : Instr) (fc : Word),
    s.device = some d → d.base % 4 = 0 →
    c.channel.toNat < 10 → c.pol.toNat < 2 → c.inputFrameSize ≠ 0 →
    ((i = .configure c ∧ ∃ e, encodeGain c.gain = .ok e) ∨ i = .deconfigure c) →
    fc.toNat = c.sampleRate.toNat / c.inputFrameSize.toNat →
      (FailsAt 0 s → exec i s =
        if Config.busFaultDetect then
          .next { s with
            busScript := s.busScript.drop 1, faultMark := true, result := some (.deviceFault d.base .write) }
        else .refused .undetectedBusFault) ∧
      (FailsAt 1 s → exec i s =
        if Config.busFaultDetect then
          .next { s with
            fc := fc
            busTrace := s.busTrace ++ [⟨.write, d.base, fc⟩]
            busScript := s.busScript.drop 2
            faultMark := true
            result := some (.deviceFault (d.base + 4 + 4 * (c.channel.toNat + c.pol.toNat * 10)) .write) }
        else .refused .undetectedBusFault)

/-- However `configure` or `deconfigure` ends, no other channel's register changes, nor the identity
(42_device_ops.md R151, R152; 10_state.md R35). -/
def Obligations.ConfigureLeavesOtherChannels : Prop :=
  ∀ (s t : State) (c : VccConfig),
    DeviceValid s → (exec (.configure c) s = .next t ∨ exec (.deconfigure c) s = .next t) →
      (∀ j : Fin 20, j.val ≠ c.channel.toNat + c.pol.toNat * 10 → t.fs[j] = s.fs[j]) ∧
      t.device = s.device ∧ t.drawCount = s.drawCount ∧ t.pending = s.pending

/-- `configure` then `status` reports the encoded gain at its own index, the old gains elsewhere, and 18 times the
frame count (42_device_ops.md R160 (a) and (d), derived there). -/
def Obligations.ConfigureThenStatus : Prop :=
  ∀ (s : State) (d : Device) (c : VccConfig) (e : Encoded) (i : Fin 20) (clear : Bool),
    s.device = some d → d.base % 4 = 0 → BusHealthy s →
    c.channel.toNat < 10 → c.pol.toNat < 2 → c.inputFrameSize ≠ 0 → encodeGain c.gain = .ok e →
    i.val = c.channel.toNat + c.pol.toNat * 10 →
      ∃ t u st, exec (.configure c) s = .next t ∧ exec (.status clear) t = .next u ∧
        u.result = some (.ok (.status st)) ∧
        st.sampleRate.toNat = 18 * (c.sampleRate.toNat / c.inputFrameSize.toNat) % 2 ^ 32 ∧
        st.gains[i.val]? = some (decodeGain e.shift e.scale) ∧
        ∀ j : Fin 20, j ≠ i → st.gains[j.val]? = some (decodeWord s.fs[j])

/-! ## RECOVER -/

/-- `recover` determines all 21 registers by 40 writes in index order (42_device_ops.md R153; the loop order is the
spec's decision D18, the word rests on D2 and D3, the defaults are free values, log entry 13). -/
def Obligations.RecoverDeterminesEveryRegister : Prop :=
  ∀ (s : State) (d : Device) (fc : Word), s.device = some d → d.base % 4 = 0 → OutcomesOk 40 s →
    fc.toNat = Config.defaultSampleRate.toNat / Config.defaultInputFrameSize.toNat →
      exec .recover s =
        .next { s with
          fc := fc
          fs := Vector.replicate 20 0x00087973#32
          busTrace := s.busTrace ++ (List.range 20).flatMap fun i =>
            [⟨.write, d.base, fc⟩, ⟨.write, d.base + 4 + 4 * i, 0x00087973#32⟩]
          busScript := s.busScript.drop 40
          result := some (.ok (.outOfRange false)) }

/-- Where write number `k` of `recover` fails, the `k` writes before it stand and no later one is issued
(42_device_ops.md R153, 60_exceptions.md R183, R188; D18, D21). -/
def Obligations.RecoverStopsAtFailedWrite : Prop :=
  ∀ (s : State) (d : Device) (fc : Word) (k : Nat), s.device = some d → d.base % 4 = 0 → k < 40 → FailsAt k s →
    fc.toNat = Config.defaultSampleRate.toNat / Config.defaultInputFrameSize.toNat →
      exec .recover s =
        if Config.busFaultDetect then
          .next { s with
            fc := if k = 0 then s.fc else fc
            fs := Vector.ofFn fun j : Fin 20 => if 2 * j.val + 1 < k then 0x00087973#32 else s.fs[j]
            busTrace := s.busTrace ++ ((List.range 20).flatMap fun i =>
              [⟨.write, d.base, fc⟩, ⟨.write, d.base + 4 + 4 * i, 0x00087973#32⟩]).take k
            busScript := s.busScript.drop (k + 1)
            faultMark := true
            result := some (.deviceFault (if k % 2 = 0 then d.base else d.base + 4 + 4 * (k / 2)) .write) }
        else .refused .undetectedBusFault

/-! ## START and STOP -/

/-- `start` is inert (42_device_ops.md R154). -/
def Obligations.StartIsInert : Prop :=
  ∀ s : State, s.device ≠ none → exec .start s = .next { s with result := some (.ok .none) }

/-- `stop` is inert, `force` or not (42_device_ops.md R155). -/
def Obligations.StopIsInert : Prop :=
  ∀ (s : State) (force : Bool),
    (s.device ≠ none → exec (.stop force) s = .next { s with result := some (.ok .none) }) ∧
    exec (.stop true) s = exec (.stop false) s

/-! ## STATUS -/

/-- `status` reads the twenty `FS` registers by ascending index and then `FC`, and reports the decoded gains and 18
times the frame count; `clear` is not read, nothing is cleared (42_device_ops.md R156). The read order is the spec's
decision D19, the modulus D9. -/
def Obligations.StatusReportsEveryRegister : Prop :=
  ∀ (s : State) (d : Device) (clear : Bool) (rate : Word), s.device = some d → d.base % 4 = 0 →
    OutcomesOk 21 s → rate.toNat = s.fc.toNat * 18 % 2 ^ 32 →
      exec (.status clear) s =
        .next { s with
          busTrace := s.busTrace ++ ((List.finRange 20).map fun i : Fin 20 =>
            ⟨.read, d.base + 4 + 4 * i.val, s.fs[i]⟩) ++ [⟨.read, d.base, s.fc⟩]
          busScript := s.busScript.drop 21
          result := some (.ok (.status ⟨rate, 10, 2,
            (List.finRange 20).map fun i : Fin 20 => decodeGain (unpack s.fs[i]).1 (unpack s.fs[i]).2⟩)) }

/-- Where read number `k` of `status` fails, no Status is returned and no later read is issued (42_device_ops.md R156,
60_exceptions.md R183; D19, D21). -/
def Obligations.StatusStopsAtFailedRead : Prop :=
  ∀ (s : State) (d : Device) (clear : Bool) (k : Nat), s.device = some d → d.base % 4 = 0 → k < 21 →
    FailsAt k s →
      exec (.status clear) s =
        if Config.busFaultDetect then
          .next { s with
            busTrace := s.busTrace ++ ((List.finRange 20).map fun i : Fin 20 =>
              (⟨.read, d.base + 4 + 4 * i.val, s.fs[i]⟩ : Transaction)).take k
            busScript := s.busScript.drop (k + 1)
            faultMark := true
            result := some (.deviceFault (if k < 20 then d.base + 4 + 4 * k else d.base) .read) }
        else .refused .undetectedBusFault

/-- The result of `status` does not depend on the reserved bits of any register (10_state.md R24 (d)). -/
def Obligations.StatusIgnoresReservedBits : Prop :=
  ∀ (s t t' : State) (fs' : Vector Word 20) (clear : Bool), DeviceValid s →
    (∀ i : Fin 20, s.fs[i].toNat % 2 ^ 20 = fs'[i].toNat % 2 ^ 20) →
    exec (.status clear) s = .next t → exec (.status clear) { s with fs := fs' } = .next t' →
      t.result = t'.result

/-! ## Units -/

/-- ENCODE_GAIN returns what the codec computes, or `InvalidArgument(gain)` (41_gain_codec.md R121, 60_exceptions.md
R181); as an instruction it is the model's choice (log entry 1). -/
def Obligations.EncodeGainUnitReplies : Prop :=
  ∀ (s : State) (g : Gain),
    (∀ e, encodeGain g = .ok e → exec (.encodeGain g) s = .next { s with result := some (.ok (.encoded e)) }) ∧
    (∀ x, encodeGain g = .error x →
      x = .gain ∧ exec (.encodeGain g) s = .next { s with result := some (.invalidArgument .gain) })

/-- DECODE_GAIN returns `fl` of `scale * 2^shift / (65535 * C_NORM)` in `GAIN_FMT` (41_gain_codec.md R122, R129; D26;
the format is a free parameter, log entry 14). -/
def Obligations.DecodeGainUnitReplies : Prop :=
  ∀ (s : State) (shift : BitVec 4) (scale : BitVec 16),
    ∃ x : Surd, surdReal x = decodedReal shift scale ∧
      exec (.decodeGain shift scale) s = .next { s with result := some (.ok (.gain (fl Config.gainFmt x))) }

/-- PACK (41_gain_codec.md R123): total, below `2^20`, the two fields side by side. -/
def Obligations.PackBuildsTheWord : Prop :=
  ∀ (s : State) (shift scale : Nat) (w : Word),
    w.toNat = shift % 16 + 16 * (scale % 65536) →
      w.toNat < 2 ^ 20 ∧ w.toNat = (shift &&& 0xF) ||| ((scale &&& 0xFFFF) <<< 4) ∧
        exec (.pack shift scale) s = .next { s with result := some (.ok (.word w)) }

/-- UNPACK (41_gain_codec.md R124): the fields, the reserved bits ignored, and its laws with PACK. -/
def Obligations.UnpackTakesTheFields : Prop :=
  (∀ (s : State) (w : Word) (shift : BitVec 4) (scale : BitVec 16),
    shift.toNat = w.toNat % 16 → scale.toNat = w.toNat / 16 % 65536 →
      exec (.unpack w) s = .next { s with result := some (.ok (.fields shift scale)) }) ∧
  (∀ a b : Nat, (unpack (pack a b)).1.toNat = a % 16 ∧ (unpack (pack a b)).2.toNat = b % 65536) ∧
  (∀ w : Word, (pack (unpack w).1.toNat (unpack w).2.toNat).toNat = w.toNat % 2 ^ 20) ∧
  ∀ w : Word, pack (unpack w).1.toNat (unpack w).2.toNat = w ↔ w.toNat / 2 ^ 20 = 0

/-- FRAME_COUNT_OF (41_gain_codec.md R125): unsigned quotient. The answer to a zero divisor, which is outside its
domain, is the model's choice (log entry 17). -/
def Obligations.FrameCountOfDivides : Prop :=
  ∀ (s : State) (rate size w : Word),
    (size ≠ 0 → w.toNat = rate.toNat / size.toNat →
      exec (.frameCountOf rate size) s = .next { s with result := some (.ok (.word w)) }) ∧
    exec (.frameCountOf rate 0) s = .next { s with result := some (.invalidArgument .inputFrameSize) }

/-- SAMPLE_RATE_OF (41_gain_codec.md R126): 18 times the frame count, exact under `NoWrap`, else modulo `2^32` (D9). -/
def Obligations.SampleRateOfMultiplies : Prop :=
  ∀ (s : State) (f w : Word), w.toNat = f.toNat * 18 % 2 ^ 32 →
    exec (.sampleRateOf f) s = .next { s with result := some (.ok (.word w)) } ∧
    (NoWrap f → w.toNat = f.toNat * 18)

/-- The sample rate does not round-trip (41_gain_codec.md R126 (c), 70_reset_and_hazards.md R216): with frame size 18
the remainder is lost, and with any divisor the report is 18 times the quotient, modulo `2^32` (D9). -/
def Obligations.SampleRateRoundTrip : Prop :=
  (∀ rate : Word, (sampleRateOf (frameCountOf rate 18)).toNat = rate.toNat - rate.toNat % 18) ∧
  (∀ rate : Word, sampleRateOf (frameCountOf rate 18) = rate ↔ 18 ∣ rate.toNat) ∧
  ∀ rate size : Word, size ≠ 0 →
    (sampleRateOf (frameCountOf rate size)).toNat = 18 * (rate.toNat / size.toNat) % 2 ^ 32

/-- REG_INDEX (30_encoding.md R84): `channel + pol * 10`, a bijection whose inverse is `mod 10` and `div 10`. -/
def Obligations.RegIndexIsABijection : Prop :=
  (∀ (s : State) (channel : Fin 10) (pol : Fin 2) (i : Fin 20), i.val = channel.val + pol.val * 10 →
    exec (.regIndex channel pol) s = .next { s with result := some (.ok (.index i)) }) ∧
  (∀ channel pol, (regIndex channel pol).val % 10 = channel.val ∧ (regIndex channel pol).val / 10 = pol.val) ∧
  Function.Bijective fun p : Fin 10 × Fin 2 => regIndex p.1 p.2

/-- REG_ADDR (30_encoding.md R85): `BASE + 0x4 + i*4`. -/
def Obligations.RegAddrIsBasePlusOffset : Prop :=
  ∀ (s : State) (d : Device) (i : Fin 20), s.device = some d →
    exec (.regAddr i) s = .next { s with result := some (.ok (.address (d.base + 4 + i.val * 4))) }

/-! ## The codec against the exact reals -/

/-- The value of a finite binary gain is the number its bits denote (00_scope.md R10, G1); the others have none. -/
def Obligations.BinaryGainsDenoteTheirValue : Prop :=
  (∀ b : BitVec 64, (b.toNat / 2 ^ 52 % 2 ^ 11 = 2047 → gainValue (.binary64 b) = none) ∧
    (b.toNat / 2 ^ 52 % 2 ^ 11 ≠ 2047 → ∃ x, gainValue (.binary64 b) = some x ∧
      realValue x = (-1) ^ (b.toNat / 2 ^ 63) *
        ((b.toNat % 2 ^ 52 + (if b.toNat / 2 ^ 52 % 2 ^ 11 = 0 then 0 else 2 ^ 52) : ℕ) : ℝ) *
        (2 : ℝ) ^ ((max (b.toNat / 2 ^ 52 % 2 ^ 11) 1 : ℤ) - 1075))) ∧
  (∀ b : BitVec 32, (b.toNat / 2 ^ 23 % 2 ^ 8 = 255 → gainValue (.binary32 b) = none) ∧
    (b.toNat / 2 ^ 23 % 2 ^ 8 ≠ 255 → ∃ x, gainValue (.binary32 b) = some x ∧
      realValue x = (-1) ^ (b.toNat / 2 ^ 31) *
        ((b.toNat % 2 ^ 23 + (if b.toNat / 2 ^ 23 % 2 ^ 8 = 0 then 0 else 2 ^ 23) : ℕ) : ℝ) *
        (2 : ℝ) ^ ((max (b.toNat / 2 ^ 23 % 2 ^ 8) 1 : ℤ) - 150)))

/-- `encode_gain` is lines 1 to 12 of 41_gain_codec.md R121 over the exact reals: accepted exactly when the value is
finite and positive, the exponent the clamped ceiling of the logarithm, the scale the clamped floor. The clamp at 14 is
the spec's decision D2, the floor D3, the flag D4. -/
def Obligations.EncodeGainFollowsExactReals : Prop :=
  ∀ g : Gain,
    ((∀ x, gainValue g = some x → realValue x ≤ 0) → encodeGain g = .error .gain) ∧
    ∀ x, gainValue g = some x → 0 < realValue x →
      ∃ e, encodeGain g = .ok e ∧ ∀ k : ℤ, k = ⌈Real.logb 2 (realValue x * cNorm)⌉ →
        (e.shift.toNat : ℤ) = max 0 (min k 14) ∧
        (e.scale.toNat : ℤ) = max 0 (min ⌊realValue x * cNorm / 2 ^ e.shift.toNat * 65535⌋ 65535) ∧
        (e.outOfRange = true ↔ 14 < k)

/-- Saturation (60_exceptions.md R182, 41_gain_codec.md R121 (e)): `out_of_range` exactly when the combined gain
exceeds 16384, and then the pair is `(14, 65535)` (decisions D2, D4). -/
def Obligations.SaturationIsTheLargestPair : Prop :=
  ∀ (g : Gain) (x : RealNumber) (e : Encoded), gainValue g = some x → encodeGain g = .ok e →
    (e.outOfRange = true ↔ 16384 < realValue x * cNorm) ∧
    (e.outOfRange = true → e.shift = 14 ∧ e.scale = 65535)

/-- Every pair the encoder produces is normalised (41_gain_codec.md R132, derived there; decision D2). -/
def Obligations.EncoderProducesNormalisedPairs : Prop :=
  ∀ (g : Gain) (e : Encoded), encodeGain g = .ok e → Normalised e.shift e.scale

/-- For a positive binary gain the combined gain is irrational, so it is no power of two, and the scaled quotient of line
9 is no integer: the ceiling and the floor are never taken at a jump (41_gain_codec.md R135, derived there; exactness is
the spec's decisions D1 and D6). -/
def Obligations.BinaryGainsHaveNoTies : Prop :=
  ∀ (g : Gain) (x : RealNumber), (∀ y, g ≠ .real y) → gainValue g = some x → 0 < realValue x →
    Irrational (realValue x * cNorm) ∧
    (∀ k : ℤ, realValue x * cNorm ≠ 2 ^ k) ∧
    ∀ (e : ℕ) (n : ℤ), realValue x * cNorm / 2 ^ e * 65535 ≠ n

/-- For a binary gain, every in-range scale is at most 65534 (41_gain_codec.md R135, derived there; decisions D2, D3 and
D4). -/
def Obligations.BinaryGainsInRangeScaleBound : Prop :=
  ∀ (g : Gain) (e : Encoded), (∀ x, g ≠ .real x) → encodeGain g = .ok e → e.outOfRange = false →
    e.scale.toNat ≤ 65534

/-- Decode then encode is the identity on canonical pairs, for exact gains (41_gain_codec.md R133 (a), derived there). -/
def Obligations.DecodeThenEncodeIsIdentity : Prop :=
  ∀ (shift : BitVec 4) (scale : BitVec 16), Canonical shift scale →
    encodeGain (decodeGainIn .real shift scale) = .ok ⟨shift, scale, false⟩

/-- Decode then encode on every pair, for exact gains (the rest of 41_gain_codec.md R133 (a), derived there; D2, D3, D4):
in range the gain comes back even where the pair does not, a scale of 32767 moves to the shift below, above the range the
largest pair comes back, and a gain of 0 is no operand. -/
def Obligations.DecodeThenEncodeOnEveryPair : Prop :=
  ∀ (shift : BitVec 4) (scale : BitVec 16),
    (1 ≤ scale.toNat → scale.toNat * 2 ^ shift.toNat ≤ 65535 * 16384 →
      ∃ e, encodeGain (decodeGainIn .real shift scale) = .ok e ∧ e.outOfRange = false ∧
        decodeGainIn .real e.shift e.scale = decodeGainIn .real shift scale) ∧
    (∀ below : BitVec 4, below.toNat + 1 = shift.toNat → scale = 32767 →
      encodeGain (decodeGainIn .real shift scale) = .ok ⟨below, 65534, false⟩) ∧
    (shift = 15 → 32768 ≤ scale.toNat →
      encodeGain (decodeGainIn .real shift scale) = .ok ⟨14, 65535, true⟩) ∧
    (scale = 0 → encodeGain (decodeGainIn .real shift scale) = .error .gain)

/-- Encode then decode never exceeds the gain and falls short by less than one unit of scale, for exact gains in range
(41_gain_codec.md R133 (b), derived there). -/
def Obligations.EncodeThenDecodeIsWithinOneUnit : Prop :=
  ∀ (x : RealNumber) (e : Encoded), encodeGain (.real x) = .ok e → realValue x * cNorm ≤ 16384 →
    decodedReal e.shift e.scale ≤ realValue x ∧
    realValue x - decodedReal e.shift e.scale < 2 ^ e.shift.toNat / (65535 * cNorm)

/-- The decoded gain of a binary format is finite and the value of the format nearest to the exact one: every other
value of the format lies strictly farther from it, so there are no ties. 0 decodes to positive zero (41_gain_codec.md
R129, D26 and the spec's general knowledge G2). -/
def Obligations.DecodedBinaryGainIsCorrectlyRounded : Prop :=
  ∀ (shift : BitVec 4) (scale : BitVec 16),
    (scale = 0 → decodeGainIn .binary64 shift scale = .binary64 0 ∧
      decodeGainIn .binary32 shift scale = .binary32 0) ∧
    (∃ y, gainValue (decodeGainIn .binary64 shift scale) = some y ∧
      ∀ (bits : BitVec 64) (z : RealNumber), gainValue (.binary64 bits) = some z → realValue z ≠ realValue y →
        |realValue y - decodedReal shift scale| < |realValue z - decodedReal shift scale|) ∧
    ∃ y, gainValue (decodeGainIn .binary32 shift scale) = some y ∧
      ∀ (bits : BitVec 32) (z : RealNumber), gainValue (.binary32 bits) = some z → realValue z ≠ realValue y →
        |realValue y - decodedReal shift scale| < |realValue z - decodedReal shift scale|

/-- The relative error of the decoded gain of a binary format (41_gain_codec.md R129, D26 and the spec's general
knowledge G3). -/
def Obligations.DecodedBinaryGainHasRelativeError : Prop :=
  ∀ (shift : BitVec 4) (scale : BitVec 16),
    (∃ y, gainValue (decodeGainIn .binary64 shift scale) = some y ∧
      |realValue y - decodedReal shift scale| ≤ decodedReal shift scale / 2 ^ 53) ∧
    ∃ y, gainValue (decodeGainIn .binary32 shift scale) = some y ∧
      |realValue y - decodedReal shift scale| ≤ decodedReal shift scale / 2 ^ 24

/-! ## Whole-machine rules -/

/-- The constraint on `BASE` (00_scope.md R8, 42_device_ops.md R150, D13) is an invariant: every step keeps it. -/
def Obligations.StepKeepsDeviceValid : Prop :=
  ∀ s t : State, DeviceValid s → step s = .next t → DeviceValid t

/-- The constraint on `BASE` holds at reset, where no Device is constructed (log entry 7). -/
def Obligations.ResetDeviceIsValid : Prop := DeviceValid State.reset

/-- `NAME` and `BASE` are set at construction and never change: no command and no reset changes them (10_state.md R21). -/
def Obligations.DeviceIdentityNeverChanges : Prop :=
  ∀ s t : State, step s = .next t →
    (∀ d, s.device = some d → t.device = some d) ∧
    (s.device = none → t.device ≠ none → ∃ f rest name base, s.pending = .request f :: rest ∧
      decode f = .ok (.construct name base) ∧ t.device = some ⟨name, base⟩)

/-- The trace only grows, and only by transactions inside the window of the Device (20_memory.md R58, R67). -/
def Obligations.BusTraceOnlyGrows : Prop :=
  ∀ s t : State, DeviceValid s → step s = .next t →
    ∃ new, t.busTrace = s.busTrace ++ new ∧ new.length ≤ 40 ∧
      ∀ x ∈ new, ∃ d, s.device = some d ∧ x.addr % 4 = 0 ∧ d.base ≤ x.addr ∧ x.addr < d.base + 0x54

/-- The fault mark is set exactly when a command ends with `DeviceFault` and is never cleared (60_exceptions.md R183). -/
def Obligations.FaultMarkFollowsDeviceFault : Prop :=
  ∀ (s t : State) (i : Instr), exec i s = .next t →
    (t.faultMark = true ↔ s.faultMark = true ∨ ∃ a dir, t.result = some (.deviceFault a dir)) ∧
    (t.faultMark = true → s.faultMark = false → ∃ k : Nat, s.busScript[k]? = some BusOutcome.fault)

/-- The instructions that only read or compute change no register and make no draw, however they end
(20_memory.md R56, 42_device_ops.md R150, R154, R155, R156; D11). -/
def Obligations.ReadersChangeNoRegister : Prop :=
  ∀ (s t : State) (i : Instr), (∀ a v, i ≠ .registerWrite a v) → i ≠ .recover → (∀ c, i ≠ .configure c) →
    (∀ c, i ≠ .deconfigure c) → exec i s = .next t →
      t.fc = s.fc ∧ t.fs = s.fs ∧ t.drawCount = s.drawCount ∧ t.pending = s.pending

/-- What the codec wrote stays as the codec writes it: reserved bits zero, shift at most 14, the pair normalised, through
every instruction but a raw write (10_state.md R34, derived there; decision D2). -/
def Obligations.CodecWordsAreKept : Prop :=
  ∀ (s t : State) (i : Instr) (j : Fin 20), DeviceValid s → (∀ a v, i ≠ .registerWrite a v) →
    exec i s = .next t → CodecWord s.fs[j] → CodecWord t.fs[j]
end

