-- ==== Sys2Proof/Laws/Codec.lean ====
section
/-! SUPPORT. The exact arithmetic of the codec against the real numbers. -/

namespace Sys2Proof.Machine

/-- The bit-by-bit square root keeps its bracket. -/
theorem isqrtFrom_spec (n k acc : Nat) (lo : acc * acc ≤ n) (hi : n < (acc + 2 ^ k) * (acc + 2 ^ k)) :
    isqrtFrom n k acc * isqrtFrom n k acc ≤ n ∧
      n < (isqrtFrom n k acc + 1) * (isqrtFrom n k acc + 1) := by
  induction k generalizing acc with
  | zero => exact ⟨lo, by simpa [isqrtFrom] using hi⟩
  | succ k ih =>
    simp only [isqrtFrom]
    split
    · rename_i h
      exact ih _ h (by rw [Nat.add_assoc, ← Nat.two_mul, ← Nat.pow_succ']; exact hi)
    · rename_i h
      exact ih _ lo (by omega)

theorem isqrt_eq_sqrt (n : Nat) : isqrt n = Nat.sqrt n := by
  have hn : n < 2 ^ (Nat.log2 n + 1) := Nat.lt_log2_self
  have hp : (2 : Nat) ^ (Nat.log2 n + 1) ≤ 2 ^ (Nat.log2 n / 2 + 1) * 2 ^ (Nat.log2 n / 2 + 1) := by
    rw [← Nat.pow_add]; exact Nat.pow_le_pow_right (by omega) (by omega)
  have := isqrtFrom_spec n (Nat.log2 n / 2 + 1) 0 (by omega) (by simpa using lt_of_lt_of_le hn hp)
  exact Nat.eq_sqrt.mpr this

theorem sqrt_five_pos : 0 < Real.sqrt 5 := Real.sqrt_pos.mpr (by norm_num)

theorem sqrt_five_irrational : Irrational (Real.sqrt 5) := by
  have := Nat.Prime.irrational_sqrt (show Nat.Prime 5 by norm_num)
  simpa using this

theorem natAbs_mul_sqrt_five (q : Int) :
    ((q.natAbs : ℕ) : ℝ) * Real.sqrt 5 = Real.sqrt ((5 * (q.natAbs * q.natAbs) : ℕ) : ℝ) := by
  have h : (((5 * (q.natAbs * q.natAbs) : ℕ) : ℝ)) = (q.natAbs : ℝ) ^ 2 * 5 := by push_cast; ring
  rw [h, Real.sqrt_mul (by positivity), Real.sqrt_sq (by positivity)]

/-- `floorRoot` is the floor of `q * sqrt 5`. -/
theorem floorRoot_eq (q : Int) : floorRoot q = ⌊(q : ℝ) * Real.sqrt 5⌋ := by
  have hfl : ⌊((q.natAbs : ℕ) : ℝ) * Real.sqrt 5⌋ = (isqrt (5 * (q.natAbs * q.natAbs)) : Int) := by
    rw [natAbs_mul_sqrt_five, Real.floor_real_sqrt_eq_nat_sqrt, isqrt_eq_sqrt]
  simp only [floorRoot]
  split
  · rename_i h
    have hq : ((q.natAbs : ℕ) : ℝ) = (q : ℝ) := by
      rw [← Int.cast_natCast, Int.natAbs_of_nonneg h]
    rw [← hfl, hq]
  · rename_i h
    have hq : ((q.natAbs : ℕ) : ℝ) = -(q : ℝ) := by
      rw [← Int.cast_natCast, Int.ofNat_natAbs_of_nonpos (by omega)]; push_cast; ring
    have hirr : Irrational (((q.natAbs : ℕ) : ℝ) * Real.sqrt 5) :=
      sqrt_five_irrational.natCast_mul (by omega)
    symm
    rw [← hfl, Int.floor_eq_iff]
    push_cast
    have h1 := Int.lt_floor_add_one (((q.natAbs : ℕ) : ℝ) * Real.sqrt 5)
    have h2 := Int.floor_le (((q.natAbs : ℕ) : ℝ) * Real.sqrt 5)
    have h3 : ((⌊((q.natAbs : ℕ) : ℝ) * Real.sqrt 5⌋ : Int) : ℝ) ≠ ((q.natAbs : ℕ) : ℝ) * Real.sqrt 5 :=
      fun e => hirr ⟨⌊((q.natAbs : ℕ) : ℝ) * Real.sqrt 5⌋, by push_cast; exact e⟩
    have h4 := lt_of_le_of_ne h2 h3
    have h5 : ((q.natAbs : ℕ) : ℝ) * Real.sqrt 5 = -((q : ℝ) * Real.sqrt 5) := by rw [hq]; ring
    constructor <;> linarith

/-- `floorSurd` is the floor of `(p + q * sqrt 5) / d`. -/
theorem floorSurd_eq (p q : Int) (d : Nat) (hd : 0 < d) :
    floorSurd p q d = ⌊((p : ℝ) + (q : ℝ) * Real.sqrt 5) / (d : ℝ)⌋ := by
  have hd' : (0 : ℝ) < (d : ℝ) := by exact_mod_cast hd
  have hdz : (0 : Int) < (d : Int) := by exact_mod_cast hd
  have key : ∀ z : Int, z ≤ floorSurd p q d ↔ (z : ℝ) ≤ ((p : ℝ) + (q : ℝ) * Real.sqrt 5) / (d : ℝ) := by
    intro z
    rw [floorSurd, Int.le_ediv_iff_mul_le hdz, floorRoot_eq, le_div_iff₀ hd', ← sub_le_iff_le_add',
      Int.le_floor]
    push_cast
    constructor <;> intro h <;> linarith
  refine le_antisymm ?_ ?_
  · exact Int.le_floor.mpr ((key _).mp le_rfl)
  · exact (key _).mpr (Int.floor_le _)

/-- `surdPos` decides whether `p + q * sqrt 5` is positive. -/
theorem surdPos_iff (p q : Int) : surdPos p q = true ↔ 0 < (p : ℝ) + (q : ℝ) * Real.sqrt 5 := by
  have h5 : Real.sqrt 5 * Real.sqrt 5 = 5 := Real.mul_self_sqrt (by norm_num)
  have hs := sqrt_five_pos
  have cast : ∀ a b : Int, a < b ↔ (a : ℝ) < (b : ℝ) := fun a b => Int.cast_lt.symm
  simp only [surdPos]
  split
  · rename_i hq
    have hq' : (0 : ℝ) ≤ (q : ℝ) := by exact_mod_cast hq
    have hr : 0 ≤ (q : ℝ) * Real.sqrt 5 := mul_nonneg hq' hs.le
    simp only [Bool.or_eq_true, decide_eq_true_eq, cast]
    push_cast
    constructor
    · rintro (h | h)
      · linarith
      · by_contra hc
        nlinarith [mul_self_nonneg ((p : ℝ) + q * Real.sqrt 5)]
    · intro h
      by_cases hp : (0 : ℝ) < p
      · exact .inl hp
      · right; nlinarith
  · rename_i hq
    have hq' : (q : ℝ) < 0 := by
      have : q < 0 := by omega
      exact_mod_cast this
    have hr : (q : ℝ) * Real.sqrt 5 < 0 := mul_neg_of_neg_of_pos hq' hs
    simp only [Bool.and_eq_true, decide_eq_true_eq, cast]
    push_cast
    constructor
    · rintro ⟨h1, h2⟩
      by_contra hc
      nlinarith
    · intro h
      have hp : (0 : ℝ) < p := by linarith
      exact ⟨hp, by nlinarith⟩

/-- `recipFloor` is the floor of `d / (p + q * sqrt 5)`. -/
theorem recipFloor_eq (p q : Int) (d : Nat) (h : 0 < (p : ℝ) + (q : ℝ) * Real.sqrt 5) :
    recipFloor p q d = ⌊(d : ℝ) / ((p : ℝ) + (q : ℝ) * Real.sqrt 5)⌋ := by
  have h5 : Real.sqrt 5 * Real.sqrt 5 = 5 := Real.mul_self_sqrt (by norm_num)
  have hn : ((p * p - 5 * (q * q) : Int) : ℝ) =
      ((p : ℝ) + (q : ℝ) * Real.sqrt 5) * ((p : ℝ) - (q : ℝ) * Real.sqrt 5) := by
    push_cast; linear_combination (q : ℝ) * q * h5
  have cast : ∀ z : Int, 0 < z → ((z.toNat : ℕ) : ℝ) = (z : ℝ) := fun z hz => by
    exact_mod_cast congrArg (Int.cast (R := ℝ)) (Int.toNat_of_nonneg hz.le)
  have hne : p * p - 5 * (q * q) ≠ 0 := by
    intro h0
    rw [h0] at hn
    push_cast at hn
    have hc : (p : ℝ) - (q : ℝ) * Real.sqrt 5 = 0 := by
      rcases mul_eq_zero.mp hn.symm with h1 | h1
      · exact absurd h1 h.ne'
      · exact h1
    by_cases hq : q = 0
    · subst hq
      simp at hc h
      exact h.ne' (by exact_mod_cast hc)
    · exact (sqrt_five_irrational.intCast_mul hq) ⟨p, by push_cast; linarith⟩
  simp only [recipFloor]
  split
  · rename_i hpos
    rw [floorSurd_eq _ _ _ (by omega), cast _ hpos]
    have hz : ((p * p - 5 * (q * q) : Int) : ℝ) ≠ 0 := by exact_mod_cast hne
    congr 1
    rw [div_eq_div_iff hz h.ne', hn]
    push_cast
    ring
  · rename_i hneg
    have hpos : 0 < 5 * (q * q) - p * p := by omega
    rw [floorSurd_eq _ _ _ (by omega), cast _ hpos]
    have hz : ((5 * (q * q) - p * p : Int) : ℝ) ≠ 0 := by exact_mod_cast hpos.ne'
    have hn' : ((5 * (q * q) - p * p : Int) : ℝ) =
        -(((p : ℝ) + (q : ℝ) * Real.sqrt 5) * ((p : ℝ) - (q : ℝ) * Real.sqrt 5)) := by
      rw [← hn]; push_cast; ring
    congr 1
    rw [div_eq_div_iff hz h.ne', hn']
    push_cast
    ring

/-- `C_NORM = (379/200) * sqrt 5` (41_gain_codec.md R120). -/
theorem cNorm_eq : cNorm = 379 / 200 * Real.sqrt 5 := by
  have h : Real.sqrt 20 = 2 * Real.sqrt 5 := by
    rw [show (20 : ℝ) = 2 ^ 2 * 5 by norm_num, Real.sqrt_mul (by positivity), Real.sqrt_sq (by norm_num)]
  rw [cNorm, h]; ring

/-- The quantity `comb = x * C_NORM` (41_gain_codec.md R121 line 4) in the codec's integers. -/
theorem comb_eq (x : Surd) :
    surdReal x * cNorm = ((combRat x : ℝ) + (combRoot x : ℝ) * Real.sqrt 5) / (combDen x : ℝ) := by
  have h5 : Real.sqrt 5 * Real.sqrt 5 = 5 := Real.mul_self_sqrt (by norm_num)
  have hd : (x.den : ℝ) ≠ 0 := by
    have : x.den ≠ 0 := by simp [Surd.den]
    exact_mod_cast this
  rw [cNorm_eq, surdReal, combRat, combRoot, combDen, Config.kNormNum, Config.kNormDen]
  push_cast
  field_simp
  linear_combination 151600 * (x.root : ℝ) * h5

/-- `INTRINSIC_GAIN` divides by a positive number. -/
theorem cNorm_pos : 0 < cNorm := by
  rw [cNorm_eq]; exact mul_pos (by norm_num) sqrt_five_pos

/-- `C_NORM` from the constants of 00_scope.md R7. -/
theorem config_cNorm_eq : Config.cNorm = cNorm := by
  rw [Config.cNorm, cNorm, Config.kNormNum, Config.kNormDen, Config.channelsOut]
  norm_num

/-- Every real number has the integers that a named gain needs, so a name may stand for any (00_scope.md R10). -/
theorem exists_realOracle (x : ℝ) : ∃ r : Config.RealOracle, r.value = x :=
  ⟨⟨x, fun n d => ⌊x * Config.cNorm * (n : ℝ) / (d : ℝ)⌋, ⌊1 / (x * Config.cNorm)⌋, fun _ _ => rfl, rfl⟩, rfl⟩

/-- `combFloor` is the floor of `x * C_NORM * n / d`. -/
theorem combFloor_eq (x : RealNumber) (n : Int) (d : Nat) (hd : 0 < d) :
    combFloor x n d = ⌊realValue x * cNorm * (n : ℝ) / (d : ℝ)⌋ := by
  cases x with
  | surd x =>
    have hc : 0 < combDen x := by simp [combDen, Surd.den]
    rw [combFloor, floorSurd_eq _ _ _ (Nat.mul_pos hc hd), realValue, comb_eq]
    congr 1
    have hc' : ((combDen x : ℕ) : ℝ) ≠ 0 := by exact_mod_cast hc.ne'
    have hd' : ((d : ℕ) : ℝ) ≠ 0 := by exact_mod_cast hd.ne'
    push_cast
    field_simp
  | other name =>
    simp only [combFloor, realValue]
    cases Config.otherReal name with
    | none => simp
    | some r => simp only [r.floorComb_eq, config_cNorm_eq]

/-- `combCeil` is the ceiling of `x * C_NORM`. -/
theorem combCeil_eq (x : RealNumber) : combCeil x = ⌈realValue x * cNorm⌉ := by
  rw [combCeil, combFloor_eq _ _ _ one_pos, ← Int.ceil_neg]
  congr 1
  push_cast
  ring

/-- `realPos` decides whether a real number is positive. -/
theorem realPos_iff (x : RealNumber) : realPos x = true ↔ 0 < realValue x := by
  cases x with
  | surd x =>
    have hd : (0 : ℝ) < (x.den : ℝ) := by exact_mod_cast Nat.succ_pos x.denPred
    rw [realPos, surdPos_iff, realValue, surdReal, div_pos_iff_of_pos_right hd]
  | other name =>
    simp only [realPos, realValue]
    cases Config.otherReal name with
    | none => simp
    | some r =>
      simp only [decide_eq_true_eq, r.floorComb_eq, config_cNorm_eq, Int.floor_lt]
      push_cast
      have := cNorm_pos
      constructor
      · intro h
        by_contra hc
        nlinarith [mul_nonpos_of_nonpos_of_nonneg (not_lt.mp hc) this.le]
      · intro h
        have := mul_pos h this
        linarith

/-- `combRecip` is the floor of `1 / (x * C_NORM)`. -/
theorem combRecip_eq (x : RealNumber) (h : 0 < realValue x) : combRecip x = ⌊1 / (realValue x * cNorm)⌋ := by
  cases x with
  | surd x =>
    have hc : (0 : ℝ) < ((combDen x : ℕ) : ℝ) := by
      have : 0 < combDen x := by simp [combDen, Surd.den]
      exact_mod_cast this
    have hpos := mul_pos h cNorm_pos
    rw [realValue, comb_eq, div_pos_iff_of_pos_right hc] at hpos
    rw [combRecip, recipFloor_eq _ _ _ hpos, realValue, comb_eq, one_div_div]
  | other name =>
    simp only [combRecip, realValue] at h ⊢
    cases ho : Config.otherReal name with
    | none => simp [ho] at h
    | some r => simp only [r.recipComb_eq, config_cNorm_eq]

/-- `E_MAX` is the largest exponent whose power of two respects `INT_GAIN_MAX` (41_gain_codec.md R121, D2). -/
theorem eMax_spec : 2 ^ Config.eMax ≤ Config.intGainMax ∧ Config.intGainMax < 2 ^ (Config.eMax + 1) := by decide

theorem exponentOf_le (x : RealNumber) : exponentOf x ≤ Config.eMax := by
  simp only [exponentOf]; omega

/-- `int_gain` respects its bound (41_gain_codec.md R121 line 7). -/
theorem intGain_le (x : RealNumber) : intGain x ≤ Config.intGainMax :=
  (Nat.pow_le_pow_right (by norm_num) (exponentOf_le x)).trans eMax_spec.1

/-- `pack` in arithmetic (41_gain_codec.md R123). -/
theorem pack_arith (a b : Nat) :
    (a &&& 0xF) ||| ((b &&& 0xFFFF) <<< 4) = a % 16 + 16 * (b % 65536) := by
  have h1 : a &&& 0xF = a % 2 ^ 4 := Nat.and_two_pow_sub_one_eq_mod a 4
  have h2 : b &&& 0xFFFF = b % 2 ^ 16 := Nat.and_two_pow_sub_one_eq_mod b 16
  rw [h1, h2, Nat.or_comm, ← Nat.shiftLeft_add_eq_or_of_lt (Nat.mod_lt _ (by norm_num)), Nat.shiftLeft_eq]
  omega

/-- Unity gain encodes to `(3, 34711)` (41_gain_codec.md R134). -/
theorem encodeExact_unityGain : encodeExact unityGain = ⟨3, 34711, false⟩ := by decide +kernel

/-- The word of unity gain (41_gain_codec.md R134). -/
theorem packEncoded_unityGain : packEncoded (encodeExact unityGain) = 0x00087973#32 := by
  rw [encodeExact_unityGain]; decide

end Sys2Proof.Machine
end

