-- ==== Sys2Proof/Laws/Decode.lean ====
section
/-! SUPPORT. The bytes of the byte form: what was written in a field is what is read from it. -/

namespace Sys2Proof

@[simp] theorem leBytes_length (n v : Nat) : (leBytes n v).length = n := by
  induction n generalizing v with
  | zero => rfl
  | succ n ih => simp [leBytes, ih]

theorem leValue_leBytes (n v : Nat) (h : v < 256 ^ n) : leValue (leBytes n v) = v := by
  induction n generalizing v with
  | zero => simp only [Nat.pow_zero] at h; simp only [leBytes, leValue]; omega
  | succ n ih =>
    have hd : v / 256 < 256 ^ n := by
      rw [Nat.div_lt_iff_lt_mul (by norm_num), ← Nat.pow_succ]; exact h
    simp only [leBytes, leValue, ih _ hd, BitVec.toNat_ofNat]
    omega

theorem leValue_lt (bs : List Byte) : leValue bs < 256 ^ bs.length := by
  induction bs with
  | nil => simp [leValue]
  | cons b bs ih =>
    have hb := b.isLt
    simp only [leValue, List.length_cons, Nat.pow_succ]
    omega

/-- A field reads back the number written in it. -/
theorem withField_leBytes {α : Type} (n v : Nat) (rest : List Byte)
    (k : Nat → List Byte → Except DecodeError α) (h : v < 256 ^ n) :
    withField n (leBytes n v ++ rest) k = k v rest := by
  have hl : (leBytes n v).length = n := leBytes_length n v
  have ht : (leBytes n v ++ rest).take n = leBytes n v := by
    rw [List.take_append_of_le_length (by omega), List.take_of_length_le (by omega)]
  have hd : (leBytes n v ++ rest).drop n = rest := by
    rw [List.drop_append_of_le_length (by omega), List.drop_of_length_le (by omega), List.nil_append]
  simp only [withField, List.length_append, hl, ht, hd, leValue_leBytes n v h]
  rw [if_neg (by omega)]

/-- What a field that was read held. -/
theorem withField_ok {α : Type} {n : Nat} {bs : List Byte} {k : Nat → List Byte → Except DecodeError α} {a : α}
    (h : withField n bs k = .ok a) :
    ∃ v rest, v < 256 ^ n ∧ n ≤ bs.length ∧ rest = bs.drop n ∧ k v rest = .ok a := by
  simp only [withField] at h
  split at h
  · cases h
  · rename_i hn
    refine ⟨_, _, ?_, by omega, rfl, h⟩
    have := leValue_lt (bs.take n)
    rwa [List.length_take, Nat.min_eq_left (by omega)] at this

theorem intOfField_fieldOfInt (z : Int) (lo : -(2 ^ 127) ≤ z) (hi : z < 2 ^ 127) :
    intOfField (fieldOfInt z) = z := by
  simp only [intOfField, fieldOfInt, BitVec.ofNat_toNat, BitVec.setWidth_eq]
  rw [BitVec.toInt_ofInt]
  exact Int.bmod_eq_of_le (by norm_num; omega) (by norm_num; omega)

theorem fieldOfInt_lt (z : Int) : fieldOfInt z < 256 ^ 16 := (BitVec.ofInt 128 z).isLt

theorem finish_ok {i j : Instr} {rest : List Byte} (h : finish i rest = .ok j) : j = i := by
  simp only [finish] at h
  split at h
  · cases h; rfl
  · cases h

end Sys2Proof
end

