-- ==== Sys2Proof/Laws/State.lean ====
section
/-! SUPPORT. What each update of the state leaves in each field. -/

namespace Sys2Proof.Machine

/-! ## record -/

@[simp] theorem record_fc (t : Transaction) (s : State) : (record t s).fc = s.fc := rfl
@[simp] theorem record_fs (t : Transaction) (s : State) : (record t s).fs = s.fs := rfl
@[simp] theorem record_device (t : Transaction) (s : State) : (record t s).device = s.device := rfl
@[simp] theorem record_result (t : Transaction) (s : State) : (record t s).result = s.result := rfl
@[simp] theorem record_busTrace (t : Transaction) (s : State) : (record t s).busTrace = s.busTrace ++ [t] := rfl
@[simp] theorem record_faultMark (t : Transaction) (s : State) : (record t s).faultMark = s.faultMark := rfl
@[simp] theorem record_drawCount (t : Transaction) (s : State) : (record t s).drawCount = s.drawCount := rfl
@[simp] theorem record_busScript (t : Transaction) (s : State) : (record t s).busScript = s.busScript := rfl
@[simp] theorem record_pending (t : Transaction) (s : State) : (record t s).pending = s.pending := rfl

/-! ## dropOutcome -/

@[simp] theorem dropOutcome_fc (s : State) : (dropOutcome s).fc = s.fc := rfl
@[simp] theorem dropOutcome_fs (s : State) : (dropOutcome s).fs = s.fs := rfl
@[simp] theorem dropOutcome_device (s : State) : (dropOutcome s).device = s.device := rfl
@[simp] theorem dropOutcome_result (s : State) : (dropOutcome s).result = s.result := rfl
@[simp] theorem dropOutcome_busTrace (s : State) : (dropOutcome s).busTrace = s.busTrace := rfl
@[simp] theorem dropOutcome_faultMark (s : State) : (dropOutcome s).faultMark = s.faultMark := rfl
@[simp] theorem dropOutcome_drawCount (s : State) : (dropOutcome s).drawCount = s.drawCount := rfl
@[simp] theorem dropOutcome_busScript (s : State) : (dropOutcome s).busScript = s.busScript.tail := rfl
@[simp] theorem dropOutcome_pending (s : State) : (dropOutcome s).pending = s.pending := rfl

/-! ## markFault -/

@[simp] theorem markFault_fc (s : State) : (markFault s).fc = s.fc := rfl
@[simp] theorem markFault_fs (s : State) : (markFault s).fs = s.fs := rfl
@[simp] theorem markFault_device (s : State) : (markFault s).device = s.device := rfl
@[simp] theorem markFault_result (s : State) : (markFault s).result = s.result := rfl
@[simp] theorem markFault_busTrace (s : State) : (markFault s).busTrace = s.busTrace := rfl
@[simp] theorem markFault_faultMark (s : State) : (markFault s).faultMark = true := rfl
@[simp] theorem markFault_drawCount (s : State) : (markFault s).drawCount = s.drawCount := rfl
@[simp] theorem markFault_busScript (s : State) : (markFault s).busScript = s.busScript := rfl
@[simp] theorem markFault_pending (s : State) : (markFault s).pending = s.pending := rfl

/-! ## writeReg -/

@[simp] theorem writeReg_fc_eq (v : Word) (s : State) : writeReg .fc v s = { s with fc := v } := rfl

theorem writeReg_fs_exact (i : Fin 20) (v : Word) (s : State) (h : rsvdField v = 0) :
    writeReg (.fs i) v s = { s with fs := s.fs.set i v } := by
  simp only [writeReg, h, if_true]

theorem writeReg_fs_draw (i : Fin 20) (v : Word) (s : State) (h : rsvdField v ≠ 0) :
    writeReg (.fs i) v s = { s with
      fs := s.fs.set i (Config.reservedDraw s.drawCount ++ v.extractLsb' 0 20)
      drawCount := s.drawCount + 1 } := by
  simp only [writeReg, h, if_false]

@[simp] theorem writeReg_fs_fc (i : Fin 20) (v : Word) (s : State) : (writeReg (.fs i) v s).fc = s.fc := by
  simp only [writeReg]; split <;> rfl
@[simp] theorem writeReg_device (r : Reg) (v : Word) (s : State) : (writeReg r v s).device = s.device := by
  cases r <;> simp only [writeReg]; split <;> rfl
@[simp] theorem writeReg_result (r : Reg) (v : Word) (s : State) : (writeReg r v s).result = s.result := by
  cases r <;> simp only [writeReg]; split <;> rfl
@[simp] theorem writeReg_busTrace (r : Reg) (v : Word) (s : State) : (writeReg r v s).busTrace = s.busTrace := by
  cases r <;> simp only [writeReg]; split <;> rfl
@[simp] theorem writeReg_faultMark (r : Reg) (v : Word) (s : State) : (writeReg r v s).faultMark = s.faultMark := by
  cases r <;> simp only [writeReg]; split <;> rfl
@[simp] theorem writeReg_busScript (r : Reg) (v : Word) (s : State) : (writeReg r v s).busScript = s.busScript := by
  cases r <;> simp only [writeReg]; split <;> rfl
@[simp] theorem writeReg_pending (r : Reg) (v : Word) (s : State) : (writeReg r v s).pending = s.pending := by
  cases r <;> simp only [writeReg]; split <;> rfl

/-! ## hardwareReset -/

@[simp] theorem hardwareReset_fc (s : State) : (hardwareReset s).fc = Config.resetDraw s.drawCount := rfl
@[simp] theorem hardwareReset_fs (s : State) :
    (hardwareReset s).fs = Vector.ofFn fun i : Fin 20 => Config.resetDraw (s.drawCount + 1 + i.val) := rfl
@[simp] theorem hardwareReset_device (s : State) : (hardwareReset s).device = s.device := rfl
@[simp] theorem hardwareReset_result (s : State) : (hardwareReset s).result = s.result := rfl
@[simp] theorem hardwareReset_busTrace (s : State) : (hardwareReset s).busTrace = s.busTrace := rfl
@[simp] theorem hardwareReset_faultMark (s : State) : (hardwareReset s).faultMark = s.faultMark := rfl
@[simp] theorem hardwareReset_drawCount (s : State) : (hardwareReset s).drawCount = s.drawCount + 21 := rfl
@[simp] theorem hardwareReset_busScript (s : State) : (hardwareReset s).busScript = s.busScript := rfl
@[simp] theorem hardwareReset_pending (s : State) : (hardwareReset s).pending = s.pending := rfl

/-! ## State.reset -/

@[simp] theorem reset_fc : State.reset.fc = 0 := rfl
@[simp] theorem reset_fs : State.reset.fs = Vector.replicate 20 0 := rfl
@[simp] theorem reset_device : State.reset.device = none := rfl
@[simp] theorem reset_result : State.reset.result = none := rfl
@[simp] theorem reset_busTrace : State.reset.busTrace = [] := rfl
@[simp] theorem reset_faultMark : State.reset.faultMark = false := rfl
@[simp] theorem reset_drawCount : State.reset.drawCount = 0 := rfl
@[simp] theorem reset_busScript : State.reset.busScript = [] := rfl
@[simp] theorem reset_pending : State.reset.pending = [] := rfl

/-! ## State.withFetchWord -/

@[simp] theorem withFetchWord_pending (s : State) (nbits w : Nat) :
    (s.withFetchWord nbits w).pending = .request (tableFrame nbits w) :: s.pending := rfl
@[simp] theorem withFetchWord_fc (s : State) (nbits w : Nat) : (s.withFetchWord nbits w).fc = s.fc := rfl
@[simp] theorem withFetchWord_fs (s : State) (nbits w : Nat) : (s.withFetchWord nbits w).fs = s.fs := rfl

/-! ## taken -/

@[simp] theorem taken_fc (s : State) : (taken s).fc = s.fc := rfl
@[simp] theorem taken_fs (s : State) : (taken s).fs = s.fs := rfl
@[simp] theorem taken_device (s : State) : (taken s).device = s.device := rfl
@[simp] theorem taken_result (s : State) : (taken s).result = s.result := rfl
@[simp] theorem taken_busTrace (s : State) : (taken s).busTrace = s.busTrace := rfl
@[simp] theorem taken_faultMark (s : State) : (taken s).faultMark = s.faultMark := rfl
@[simp] theorem taken_drawCount (s : State) : (taken s).drawCount = s.drawCount := rfl
@[simp] theorem taken_busScript (s : State) : (taken s).busScript = s.busScript := rfl
@[simp] theorem taken_pending (s : State) : (taken s).pending = s.pending.tail := rfl

/-- Everything a step can do. -/
theorem step_cases {s t : State} (h : step s = .next t) :
    (s.pending = [] ∧ t = s) ∨
    (∃ rest, s.pending = .reset :: rest ∧ t = hardwareReset { s with pending := rest }) ∨
    (∃ f rest i, s.pending = .request f :: rest ∧ decode f = .ok i ∧
      exec i { s with pending := rest } = .next t) := by
  simp only [step, fetch, taken, idle] at h
  cases hp : s.pending with
  | nil => simp only [hp] at h; cases h; exact .inl ⟨rfl, rfl⟩
  | cons x rest =>
    cases x with
    | reset => simp only [hp, List.tail_cons] at h; cases h; exact .inr (.inl ⟨rest, rfl, rfl⟩)
    | request f =>
      simp only [hp, List.tail_cons] at h
      cases hd : decode f with
      | error why => simp only [hd] at h; cases h
      | ok i => simp only [hd] at h; exact .inr (.inr ⟨f, rest, i, rfl, hd, h⟩)

end Sys2Proof.Machine
end

