-- ==== Sys2Proof/Laws/Ops.lean ====
section
/-! SUPPORT. What each shared operation can do, said once. -/

namespace Sys2Proof.Machine

/-! ## Addresses -/

/-- The window's constraint is the spec's: the short test is implied by `ADDR_W >= 7`. -/
theorem validBase_iff (base : Nat) :
    validBase base = true ↔ base % 4 = 0 ∧ base + 0x54 ≤ 2 ^ Config.addrW := by
  have h : (2 : Nat) ^ 7 ≤ 2 ^ Config.addrW := Nat.pow_le_pow_right (by omega) (by simp [Config.addrW])
  simp only [validBase, Config.windowBytes, Bool.and_eq_true, Bool.or_eq_true, decide_eq_true_eq]
  constructor
  · rintro ⟨h1, h2 | h2⟩ <;> exact ⟨h1, by omega⟩
  · rintro ⟨h1, h2⟩; exact ⟨h1, .inr h2⟩

/-- Every register is where its address says, on a word-aligned base. -/
theorem windowReg_addrOf (base : Nat) (r : Reg) (hb : base % 4 = 0) :
    windowReg base (addrOf base r) = .ok r := by
  cases r with
  | fc => simp [windowReg, addrOf, fcAddr, Config.offFrameCount, Config.windowBytes, hb]
  | fs i =>
    have hi := i.isLt
    have h1 : (base + 4 + i.val * 4) % 4 = 0 := by omega
    have h2 : base ≤ base + 4 + i.val * 4 ∧ base + 4 + i.val * 4 < base + 0x54 := by omega
    have h3 : base + 4 + i.val * 4 - base ≠ 0 := by omega
    have h4 : (base + 4 + i.val * 4 - base - 4) / 4 = i.val := by omega
    simp only [windowReg, addrOf, regAddr, Config.offFs, Config.regStride, Config.windowBytes, h1, ne_eq,
      not_true_eq_false, if_false, h2, and_self, dif_pos, h3, h4]

/-- Only the addresses of registers select one. -/
theorem windowReg_ok {base addr : Nat} {r : Reg} (hb : base % 4 = 0) (h : windowReg base addr = .ok r) :
    addr = addrOf base r := by
  simp only [windowReg, Config.windowBytes, Config.offFs, Config.regStride] at h
  split at h
  · cases h
  · split at h
    · split at h
      · cases h; simp only [addrOf, fcAddr, Config.offFrameCount]; omega
      · cases h; simp only [addrOf, regAddr, Config.offFs, Config.regStride]; omega
    · cases h

/-! ## Transactions -/

/-- A completed write stored the word in the register of its address and appended its entry. -/
theorem busWrite_done {base addr : Nat} {v : Word} {s t : State} {u : Unit}
    (h : busWrite base addr v s = .done u t) :
    ∃ r, windowReg base addr = .ok r ∧ nextOutcome s = .ok ∧
      t = record ⟨.write, addr, v⟩ (writeReg r v (dropOutcome s)) := by
  simp only [busWrite] at h
  split at h
  · cases h
  · rename_i r hr
    split at h
    · cases h; exact ⟨r, hr, by assumption, rfl⟩
    · cases h

/-- A failed write only used up its outcome. -/
theorem busWrite_failed {base addr a : Nat} {v : Word} {s t : State} {dir : Direction}
    (h : busWrite base addr v s = .failed a dir t) :
    a = addr ∧ dir = .write ∧ nextOutcome s = .fault ∧ t = dropOutcome s := by
  simp only [busWrite] at h
  split at h
  · cases h
  · split at h
    · cases h
    · cases h; exact ⟨rfl, rfl, by assumption, rfl⟩

/-- A completed read answered the word of the register of its address and changed no register. -/
theorem busRead_done {base addr : Nat} {w : Word} {s t : State} (h : busRead base addr s = .done w t) :
    ∃ r, windowReg base addr = .ok r ∧ nextOutcome s = .ok ∧ w = readReg s r ∧
      t = record ⟨.read, addr, w⟩ (dropOutcome s) := by
  simp only [busRead] at h
  split at h
  · cases h
  · rename_i r hr
    split at h
    · cases h; exact ⟨r, hr, by assumption, rfl, rfl⟩
    · cases h

/-- A failed read only used up its outcome. -/
theorem busRead_failed {base addr a : Nat} {s t : State} {dir : Direction}
    (h : busRead base addr s = .failed a dir t) :
    a = addr ∧ dir = .read ∧ nextOutcome s = .fault ∧ t = dropOutcome s := by
  simp only [busRead] at h
  split at h
  · cases h
  · split at h
    · cases h
    · cases h; exact ⟨rfl, rfl, by assumption, rfl⟩

/-- A write to a register's address on a healthy bus completes. -/
theorem busWrite_addrOf {base : Nat} {s : State} (r : Reg) (v : Word) (hb : base % 4 = 0)
    (ho : nextOutcome s = .ok) :
    busWrite base (addrOf base r) v s =
      .done () (record ⟨.write, addrOf base r, v⟩ (writeReg r v (dropOutcome s))) := by
  simp only [busWrite, windowReg_addrOf base r hb, ho]

/-- A read of a register's address on a healthy bus completes. -/
theorem busRead_addrOf {base : Nat} {s : State} (r : Reg) (hb : base % 4 = 0) (ho : nextOutcome s = .ok) :
    busRead base (addrOf base r) s =
      .done (readReg s r) (record ⟨.read, addrOf base r, readReg s r⟩ (dropOutcome s)) := by
  simp only [busRead, windowReg_addrOf base r hb, ho]

theorem andThen_done {α β : Type} {x : BusResult α} {k : α → State → BusResult β} {b : β} {t : State}
    (h : x.andThen k = .done b t) : ∃ a u, x = .done a u ∧ k a u = .done b t := by
  cases x with
  | done a u => exact ⟨a, u, rfl, h⟩
  | failed a d u => cases h
  | refused r => cases h

theorem andThen_failed {α β : Type} {x : BusResult α} {k : α → State → BusResult β} {a : Nat}
    {dir : Direction} {t : State} (h : x.andThen k = .failed a dir t) :
    x = .failed a dir t ∨ ∃ b u, x = .done b u ∧ k b u = .failed a dir t := by
  cases x with
  | done b u => exact .inr ⟨b, u, rfl, h⟩
  | failed b d u => simp only [BusResult.andThen] at h; cases h; exact .inl rfl
  | refused r => cases h

/-! ## The end of a command -/

/-- A command that ends with a next state either completed or reports a detected fault. -/
theorem endCommand_next {x : BusResult Value} {t : State} (h : endCommand x = .next t) :
    (∃ v s, x = .done v s ∧ t = { s with result := some (.ok v) }) ∨
    (∃ a dir s, x = .failed a dir s ∧ Config.busFaultDetect = true ∧
      t = { s with faultMark := true, result := some (.deviceFault a dir) }) := by
  cases x with
  | done v s => simp only [endCommand, reply] at h; cases h; exact .inl ⟨v, s, rfl, rfl⟩
  | failed a dir s =>
    simp only [endCommand, raiseDeviceFault, reply] at h
    split at h
    · rename_i hd
      cases h; exact .inr ⟨a, dir, s, rfl, hd, rfl⟩
    · cases h
  | refused r => cases h

theorem withDevice_next {s t : State} {k : Device → Host.Outcome State Fault Refusal}
    (h : withDevice s k = .next t) : ∃ d, s.device = some d ∧ k d = .next t := by
  simp only [withDevice] at h
  split at h
  · cases h
  · rename_i d hd; exact ⟨d, hd, h⟩

/-! ## validate -/

/-- What passes `validate`, and what comes out of it. -/
theorem validate_ok_iff (c : VccConfig) (v : ValidConfig) :
    validate c = .ok v ↔ c.channel.toNat = v.channel.val ∧ c.pol.toNat = v.pol.val ∧
      c.inputFrameSize ≠ 0 ∧ c.sampleRate = v.sampleRate ∧ c.inputFrameSize = v.inputFrameSize ∧
      positiveValue c.gain = some v.gain := by
  obtain ⟨sr, fs, ⟨ch, hch⟩, ⟨po, hpo⟩, g⟩ := v
  simp only [validate]
  constructor
  · intro h
    split at h
    · split at h
      · split at h
        · cases h
        · split at h
          · cases h
          · cases h; exact ⟨rfl, rfl, by assumption, rfl, rfl, by assumption⟩
      · cases h
    · cases h
  · rintro ⟨rfl, rfl, h0, rfl, rfl, hg⟩
    rw [dif_pos hch, dif_pos hpo, if_neg h0, hg]

theorem defaultInputFrameSize_ne_zero : Config.defaultInputFrameSize ≠ 0 := by
  simp only [Config.defaultInputFrameSize]
  split
  · decide
  · assumption

theorem defaultSampleRate_ne_zero : Config.defaultSampleRate ≠ 0 := by
  simp only [Config.defaultSampleRate]
  split
  · decide
  · assumption

/-- The default Config always passes `validate` (10_state.md R30). -/
theorem validate_defaultConfig (pol : Fin 2) (channel : Fin 10) :
    validate (defaultConfig pol channel) = .ok (defaultValid pol channel) := by
  rw [validate_ok_iff]
  refine ⟨?_, ?_, defaultInputFrameSize_ne_zero, rfl, rfl, rfl⟩
  · simp only [defaultConfig, defaultValid, BitVec.toNat_ofNat]; omega
  · simp only [defaultConfig, defaultValid, BitVec.toNat_ofNat]; omega

/-- The pairs of `recover` address the registers in ascending order. -/
theorem recoverPairs_indices : recoverPairs.map (fun p => regIndex p.2 p.1) = List.finRange 20 := by
  decide

/-! ## What configureWith can do -/

/-- Every next state of `configure` and `deconfigure`: an invalid argument, both writes, or a stop at either write. -/
theorem configureWith_next {c : VccConfig} {s t : State} (h : configureWith c s = .next t) :
    ∃ d, s.device = some d ∧
      ((∃ info, validate c = .error info ∧ t = { s with result := some (.invalidArgument info) }) ∨
       ∃ v, validate c = .ok v ∧ endCommand ((configureWrites d.base v s).andThen
         fun oor s => .done (.outOfRange oor) s) = .next t) := by
  obtain ⟨d, hd, h⟩ := withDevice_next h
  refine ⟨d, hd, ?_⟩
  split at h
  · rename_i info hi
    simp only [raiseInvalidArgument, reply] at h
    cases h; exact .inl ⟨info, hi, rfl⟩
  · rename_i v hv; exact .inr ⟨v, hv, h⟩

end Sys2Proof.Machine
end

