-- ==== Sys2Proof/Laws/PerInstr.lean ====
section
/-! SUPPORT. The family EncodedHead: each instruction's frame has the format of its row of opcode_table.json and, in the
place where the decoder looks, the row's opcode or selector. -/

namespace Sys2Proof.Laws

/-- The row of an instruction: its format and its opcode (30_encoding.md R88) or the model's unit selector. -/
def rowOf : Instr → Format × Nat
  | .construct _ _ => (.cmd, 0x0)
  | .registerWrite _ _ => (.cmd, 0x1)
  | .registerRead _ => (.cmd, 0x2)
  | .recover => (.cmd, 0x3)
  | .configure _ => (.cmd, 0x4)
  | .start => (.cmd, 0x5)
  | .stop _ => (.cmd, 0x6)
  | .deconfigure _ => (.cmd, 0x7)
  | .status _ => (.cmd, 0x8)
  | .pack _ _ => (.unit, 0)
  | .encodeGain _ => (.unit, 1)
  | .decodeGain _ _ => (.unit, 2)
  | .unpack _ => (.unit, 3)
  | .frameCountOf _ _ => (.unit, 4)
  | .sampleRateOf _ => (.unit, 5)
  | .regIndex _ _ => (.unit, 6)
  | .regAddr _ => (.unit, 7)

/-- Where the decoder looks for the opcode of a command or the selector of a unit. -/
def headOf (f : Frame) : Option Nat :=
  match f.format with
  | .cmd => (f.bytes[0]?).map fun b => b.toNat % 16
  | .unit => (f.bytes[4]?).map fun b => b.toNat

/-- The frame of an instruction carries its row. -/
def EncodedHead.Statement (i : Instr) : Prop :=
  (encode i).format = (rowOf i).1 ∧ headOf (encode i) = some (rowOf i).2

theorem cmdFrame_head (opcode variant : Nat) (operands : List Byte) (h : opcode < 16) :
    (cmdFrame opcode variant operands).format = .cmd ∧
      headOf (cmdFrame opcode variant operands) = some opcode := by
  refine ⟨rfl, ?_⟩
  simp only [cmdFrame, headOf, leBytes, List.singleton_append, List.getElem?_cons_zero, Option.map_some,
    BitVec.toNat_ofNat, Option.some.injEq]
  omega

theorem unitFrame_head (word selector : Nat) (operands : List Byte) (h : selector < 256) :
    (unitFrame word selector operands).format = .unit ∧
      headOf (unitFrame word selector operands) = some selector := by
  refine ⟨rfl, ?_⟩
  simp only [unitFrame, headOf, leBytes, List.cons_append, List.nil_append, List.getElem?_cons_succ,
    List.getElem?_cons_zero, Option.map_some, BitVec.toNat_ofNat, Option.some.injEq]
  omega

theorem EncodedHead.construct (name : List Byte) (base : Nat) : EncodedHead.Statement (.construct name base) :=
  cmdFrame_head _ _ _ (by decide)
theorem EncodedHead.registerWrite (addr : Nat) (v : Word) : EncodedHead.Statement (.registerWrite addr v) :=
  cmdFrame_head _ _ _ (by decide)
theorem EncodedHead.registerRead (addr : Nat) : EncodedHead.Statement (.registerRead addr) :=
  cmdFrame_head _ _ _ (by decide)
theorem EncodedHead.recover : EncodedHead.Statement .recover := cmdFrame_head _ _ _ (by decide)
theorem EncodedHead.configure (c : VccConfig) : EncodedHead.Statement (.configure c) :=
  cmdFrame_head _ _ _ (by decide)
theorem EncodedHead.start : EncodedHead.Statement .start := cmdFrame_head _ _ _ (by decide)
theorem EncodedHead.stop (force : Bool) : EncodedHead.Statement (.stop force) := cmdFrame_head _ _ _ (by decide)
theorem EncodedHead.deconfigure (c : VccConfig) : EncodedHead.Statement (.deconfigure c) :=
  cmdFrame_head _ _ _ (by decide)
theorem EncodedHead.status (clear : Bool) : EncodedHead.Statement (.status clear) :=
  cmdFrame_head _ _ _ (by decide)
theorem EncodedHead.encodeGain (g : Gain) : EncodedHead.Statement (.encodeGain g) :=
  unitFrame_head _ _ _ (by decide)
theorem EncodedHead.decodeGain (shift : BitVec 4) (scale : BitVec 16) :
    EncodedHead.Statement (.decodeGain shift scale) := unitFrame_head _ _ _ (by decide)
theorem EncodedHead.pack (shift scale : Nat) : EncodedHead.Statement (.pack shift scale) :=
  unitFrame_head _ _ _ (by decide)
theorem EncodedHead.unpack (w : Word) : EncodedHead.Statement (.unpack w) := unitFrame_head _ _ _ (by decide)
theorem EncodedHead.frameCountOf (r f : Word) : EncodedHead.Statement (.frameCountOf r f) :=
  unitFrame_head _ _ _ (by decide)
theorem EncodedHead.sampleRateOf (f : Word) : EncodedHead.Statement (.sampleRateOf f) :=
  unitFrame_head _ _ _ (by decide)
theorem EncodedHead.regIndex (channel : Fin 10) (pol : Fin 2) : EncodedHead.Statement (.regIndex channel pol) :=
  unitFrame_head _ _ _ (by decide)
theorem EncodedHead.regAddr (index : Fin 20) : EncodedHead.Statement (.regAddr index) :=
  unitFrame_head _ _ _ (by decide)

end Sys2Proof.Laws
end

