-- ==== Sys2Proof/Tests/Slice0.lean ====
section
/-! SUPPORT. Tests on fixed values (their source is named beside them) and, for every statement with hypotheses, a
concrete case that meets them. -/

namespace Sys2Proof.Tests

-- One theorem at a time: waiting threads would reserve more memory than the check allows.
set_option Elab.async false

open Sys2Proof.Machine

/-! ## Helpers -/

/-- A constructed Device at the example base of 95_test_vectors.md, every register zero. -/
def small : State := { State.reset with device := some ⟨[], 0x1000⟩ }

/-- The same at base 0, where the window fits every address space. -/
def tiny : State := { State.reset with device := some ⟨[], 0⟩ }

/-- A Device whose transaction number `k` fails. -/
def failing (k : Nat) : State := { small with busScript := List.replicate k .ok ++ [.fault] }

/-- The source's example configuration (95_test_vectors.md S6). -/
def example6 : VccConfig := ⟨18000000, 0, 3, 18, .binary64 0x4000000000000000⟩

def nextOf (o : Host.Outcome State Fault Refusal) : Option State :=
  match o with
  | .next s => some s
  | _ => none

def resultOf (o : Host.Outcome State Fault Refusal) : Option Result := (nextOf o).bind State.result

theorem exists_next {o : Host.Outcome State Fault Refusal} (h : (nextOf o).isSome = true) :
    ∃ t, o = .next t := by
  cases o with
  | next s => exact ⟨s, rfl⟩
  | fault r => cases h
  | refused r => cases h

/-! ## Decoding: words written out from 30_encoding.md R82, R84 to R86, R88 and the layouts of log entries 2 and 3 -/

theorem test_decode_construct :
    decode ⟨.cmd, [0x00, 0x00, 0x10, 0, 0, 0, 0, 0, 0, 4, 0x76, 0x63, 0x63, 0x30]⟩ =
      .ok (.construct [0x76, 0x63, 0x63, 0x30] 0x1000) := by decide
theorem test_decode_registerWrite :
    decode ⟨.cmd, [0x01, 0x10, 0x10, 0, 0, 0, 0, 0, 0, 0x74, 0x79, 0x08, 0x00]⟩ =
      .ok (.registerWrite 0x1010 0x00087974) := by decide
theorem test_decode_registerRead :
    decode ⟨.cmd, [0x02, 0x2C, 0x10, 0, 0, 0, 0, 0, 0]⟩ = .ok (.registerRead 0x102C) := by decide
theorem test_decode_recover : decode ⟨.cmd, [0x03]⟩ = .ok .recover := by decide
-- P6, k = 4: 3FF0000000000000 00000012 00000000 00000001 0112A891
theorem test_decode_configure :
    decode ⟨.cmd, [0x04, 0x91, 0xA8, 0x12, 0x01, 1, 0, 0, 0, 0, 0, 0, 0, 0x12, 0, 0, 0, 0, 0, 0, 0, 0, 0, 0xF0, 0x3F]⟩ =
      .ok (.configure ⟨18000017, 1, 0, 18, .binary64 0x3FF0000000000000⟩) := by decide
theorem test_decode_configure_binary32 :
    decode ⟨.cmd, [0x14, 1, 0, 0, 0, 2, 0, 0, 0, 3, 0, 0, 0, 4, 0, 0, 0, 0, 0, 0x80, 0x3F]⟩ =
      .ok (.configure ⟨1, 2, 3, 4, .binary32 0x3F800000⟩) := by decide
theorem test_decode_configure_otherReal :
    decode ⟨.cmd, [0x34, 1, 0, 0, 0, 0, 0, 0, 0, 3, 0, 0, 0, 4, 0, 0, 0, 5, 1, 0, 0, 0, 0, 0, 0]⟩ =
      .ok (.configure ⟨1, 0, 3, 4, .real (.other 261)⟩) := by decide
theorem test_decode_start : decode ⟨.cmd, [0x05]⟩ = .ok .start := by decide
theorem test_decode_stop : decode ⟨.cmd, [0x06, 1]⟩ = .ok (.stop true) := by decide
-- P3, k = 4
theorem test_decode_deconfigure :
    decode ⟨.cmd, [0x07, 0x80, 0xA8, 0x12, 0x01, 0, 0, 0, 0, 3, 0, 0, 0, 0x12, 0, 0, 0, 0, 0, 0, 0, 0, 0, 0, 0x40]⟩ =
      .ok (.deconfigure ⟨18000000, 0, 3, 18, .binary64 0x4000000000000000⟩) := by decide
theorem test_decode_status : decode ⟨.cmd, [0x08, 0]⟩ = .ok (.status false) := by decide
theorem test_decode_encodeGain :
    decode ⟨.unit, [0, 0, 0, 0, 1, 1, 0, 0, 0, 0x40]⟩ = .ok (.encodeGain (.binary32 0x40000000)) := by decide
theorem test_decode_decodeGain :
    decode ⟨.unit, [0x73, 0x79, 0xC8, 0xAB, 2]⟩ = .ok (.decodeGain 3 34711) := by decide
theorem test_decode_pack :
    decode ⟨.unit, [0x74, 0x79, 0x08, 0, 0, 0, 0, 0, 0, 0, 0, 0, 0]⟩ = .ok (.pack 4 34711) := by decide
theorem test_decode_unpack :
    decode ⟨.unit, [0x73, 0x79, 0xC8, 0xAB, 3]⟩ = .ok (.unpack 0xABC87973) := by decide
theorem test_decode_frameCountOf :
    decode ⟨.unit, [0, 0, 0, 0, 4, 0x80, 0xA8, 0x12, 0x01, 18, 0, 0, 0]⟩ =
      .ok (.frameCountOf 18000000 18) := by decide
theorem test_decode_sampleRateOf :
    decode ⟨.unit, [0x40, 0x42, 0x0F, 0, 5]⟩ = .ok (.sampleRateOf 1000000) := by decide
theorem test_decode_regIndex : decode ⟨.unit, [15, 0, 0, 0, 6]⟩ = .ok (.regIndex 5 1) := by decide
theorem test_decode_regAddr : decode ⟨.unit, [0x40, 0, 0, 0, 7]⟩ = .ok (.regAddr 15) := by decide

theorem test_decode_refuses :
    decode ⟨.cmd, [0x09]⟩ = .error .unassignedOpcode ∧ decode ⟨.cmd, [0x0F]⟩ = .error .unassignedOpcode ∧
    decode ⟨.cmd, [0x15]⟩ = .error .unusedBits ∧ decode ⟨.cmd, [0x44] ++ List.replicate 40 0⟩ = .error .badGainTag ∧
    decode ⟨.cmd, [0x02, 0]⟩ = .error .truncated ∧ decode ⟨.cmd, [0x05, 1]⟩ = .error .trailingBytes ∧
    decode ⟨.cmd, [0x06, 2]⟩ = .error .badBool ∧ decode ⟨.unit, [0, 0, 0, 0, 8]⟩ = .error .unassignedUnit ∧
    decode ⟨.unit, [0, 0, 0x10, 0, 0, 0, 0, 0, 0, 0, 0, 0, 0]⟩ = .error .reservedBits ∧
    decode ⟨.unit, [20, 0, 0, 0, 6]⟩ = .error .indexOutOfRange ∧
    decode ⟨.unit, [0, 0, 0, 0, 7]⟩ = .error .indexOutOfRange := by decide

/-! ## WellFormed refuses -/

theorem test_illFormed_name : Instr.wellFormed (.construct (List.replicate 256 0) 0) = false := by decide +kernel
theorem test_illFormed_base : Instr.wellFormed (.construct [] (2 ^ 64)) = false := by decide
theorem test_illFormed_writeAddr : Instr.wellFormed (.registerWrite (2 ^ 64) 0) = false := by decide
theorem test_illFormed_readAddr : Instr.wellFormed (.registerRead (2 ^ 64)) = false := by decide
theorem test_illFormed_configure :
    Instr.wellFormed (.configure { example6 with gain := .real (.surd ⟨2 ^ 127, 0, 0⟩) }) = false := by decide
theorem test_illFormed_deconfigure :
    Instr.wellFormed (.deconfigure { example6 with gain := .real (.surd ⟨0, -(2 ^ 127) - 1, 0⟩) }) = false := by decide
theorem test_illFormed_encodeGain :
    Instr.wellFormed (.encodeGain (.real (.surd ⟨0, 0, 2 ^ 128⟩))) = false := by decide
theorem test_illFormed_otherReal : Instr.wellFormed (.encodeGain (.real (.other (2 ^ 64)))) = false := by decide
theorem test_illFormed_pack :
    Instr.wellFormed (.pack (2 ^ 36) 0) = false ∧ Instr.wellFormed (.pack 0 (2 ^ 48)) = false := by decide

/-! ## The table's words from reset -/

theorem test_tableWords :
    decodeTableWord 8 0 = some (.construct [] 0) ∧ decodeTableWord 8 3 = some .recover ∧
    decodeTableWord 8 9 = none ∧ decodeTableWord 32 0x00087974 = some (.pack 4 34711) := by decide +kernel
theorem test_commandsRunFromReset :
    ∀ k : Fin 9, (nextOf (step (State.reset.withFetchWord 8 k.val))).isSome = true := by decide +kernel
theorem test_unitRunsFromReset :
    resultOf (step (State.reset.withFetchWord 32 0x00087974)) = some (.ok (.word 0x00087974)) := by
  decide +kernel

/-! ## The codec: 95_test_vectors.md V-P, V-E, V-EB, V-D, V-F -/

theorem test_pack : pack 14 65535 = 0x000FFFFE ∧ pack 3 92564 = 0x00069943 := by decide
theorem test_unpack : unpack 0xABC87973 = (3, 34711) ∧ unpack 0xFFF00000 = (0, 0) := by decide
theorem test_encode_values :
    encodeGain (.binary64 0x4000000000000000) = .ok ⟨4, 34711, false⟩ ∧
    encodeGain (.real (.surd ⟨1, 0, 9999999⟩)) = .ok ⟨0, 0, false⟩ ∧
    encodeGain (.real (.surd ⟨3867, 0, 0⟩)) = .ok ⟨14, 65535, true⟩ ∧
    encodeGain (.binary64 0x3FCE3523231CF853) = .ok ⟨0, 65534, false⟩ ∧
    encodeGain (.binary64 0x3FCE3523231CF854) = .ok ⟨1, 32767, false⟩ := by decide +kernel
theorem test_encode_refuses :
    encodeGain (.binary64 0x7FF8000000000000) = .error .gain ∧ encodeGain (.binary64 0xFFF0000000000000) = .error .gain ∧
    encodeGain (.binary32 0x80000000) = .error .gain ∧ encodeGain (.real (.surd ⟨-1, 0, 0⟩)) = .error .gain := by decide +kernel
theorem test_decode_unity :
    decodeGainIn .binary64 3 34711 = .binary64 0x3FEFFFCDBE49B85F ∧
    decodeGainIn .binary32 3 34711 = .binary32 0x3F7FFE6E := by decide +kernel
theorem test_decode_largest :
    decodeGainIn .binary64 15 65535 = .binary64 0x40BE3523231CF853 ∧
    decodeGainIn .binary32 0 1 = .binary32 0x3671AA0B := by decide +kernel
theorem test_frameCount : frameCountOf 18000017 18 = 1000000 ∧ frameCountOf 17 18 = 0 := by decide
theorem test_sampleRate :
    sampleRateOf 238609294 = 4294967292 ∧ sampleRateOf 238609295 = 14 ∧ sampleRateOf 0x80000000 = 0 := by decide
theorem test_regIndex : regIndex 5 1 = 15 ∧ regAddr 0x1000 15 = 0x1040 ∧ regAddr 0x1000 19 = 0x1050 := by decide

/-! ## Commands: 95_test_vectors.md V-R, V-C, V-X -/

theorem test_construct :
    (nextOf (exec (.construct [0x76] 0x20) State.reset)).bind State.device = some ⟨[0x76], 0x20⟩ := by decide
theorem test_construct_misaligned : nextOf (exec (.construct [] 0x1002) State.reset) = none := by decide
-- V-R, row 4
theorem test_registerWrite_last :
    (nextOf (exec (.registerWrite 0x1050 0x000FFFFF) small)).map (fun s => s.fs[19]) = some 0x000FFFFF := by decide
-- V-R, row 6: a draw above the low 20 bits as written
theorem test_registerWrite_reserved :
    (nextOf (exec (.registerWrite 0x1008 0xABC87973) small)).map (fun s => (s.fs[1], s.drawCount, s.busTrace)) =
      some (Config.reservedDraw 0 ++ 0x87973#20, 1, [⟨.write, 0x1008, 0xABC87973⟩]) := rfl
theorem test_registerRead :
    resultOf (exec (.registerRead 0x1000) { small with fc := 0xDEADBEEF }) = some (.ok (.word 0xDEADBEEF)) := by decide
theorem test_registerRead_outside : nextOf (exec (.registerRead 0x1054) small) = none := by decide
-- C1
theorem test_configure :
    (nextOf (exec (.configure example6) small)).map (fun s => (s.fc, s.fs[3], s.fs[2], s.busTrace)) =
      some (0x000F4240, 0x00087974, 0, [⟨.write, 0x1000, 0x000F4240⟩, ⟨.write, 0x1010, 0x00087974⟩]) := by
  decide +kernel
-- X6
theorem test_configure_firstBadOperand :
    resultOf (exec (.configure ⟨1, 7, 99, 0, .real (.surd ⟨-1, 0, 0⟩)⟩) small) =
      some (.invalidArgument .channel) := by decide
-- C7: the gain is a NaN
theorem test_deconfigure :
    (nextOf (exec (.deconfigure ⟨100, 0, 3, 10, .binary64 0x7FF8000000000000⟩) small)).map
      (fun s => (s.fc, s.fs[3])) = some (10, 0x00087973) := by decide +kernel
-- C8
theorem test_recover :
    (nextOf (exec .recover small)).map (fun s => (s.fs[0], s.fs[19], s.busTrace.length)) =
      some (0x00087973, 0x00087973, 40) := by decide +kernel
theorem test_start : resultOf (exec .start small) = some (.ok .none) := by decide
theorem test_stop : resultOf (exec (.stop true) small) = some (.ok .none) := by decide
-- C5: a zero register reads as sample rate 0
theorem test_status_trace :
    (nextOf (exec (.status true) small)).map (fun s => (s.busTrace.length, s.busTrace[0]?, s.busTrace[20]?)) =
      some (21, some ⟨.read, 0x1004, 0⟩, some ⟨.read, 0x1000, 0⟩) := by decide +kernel
theorem test_frameCountOf_zero :
    resultOf (exec (.frameCountOf 5 0) State.reset) = some (.invalidArgument .inputFrameSize) := by decide
theorem test_resultCodes :
    resultCode (.invalidArgument .gain) = 1 ∧ resultCode (.deviceFault 0 .read) = 2 ∧ argInfoCode .gain = 4 := by
  decide

/-! ## Witnesses: one concrete case for the hypotheses of each statement -/

theorem encodeGain_two : encodeGain (.binary64 0x4000000000000000) = .ok ⟨4, 34711, false⟩ := by decide +kernel

theorem tiny_valid : DeviceValid tiny := by
  intro d h
  simp only [tiny, Option.some.injEq] at h
  subst h
  exact (validBase_iff 0).mp (by decide)

theorem witness_DecodeOfEncodeIsIdentity :
    Instr.wellFormed (.construct (List.replicate 255 1) (2 ^ 64 - 1)) = true := by decide +kernel
theorem witness_DecodedInstructionsAreWellFormed : decode ⟨.cmd, [0x05]⟩ = .ok .start := by decide
theorem witness_UnassignedOpcodesAreRefused :
    (9 ≤ (0x09 : Byte).toNat % 16 ∧ 9 ≤ (0x0F : Byte).toNat % 16) ∧
    ({ State.reset with pending := [.request ⟨.cmd, [0x0F]⟩] } : State).pending =
      .request ⟨.cmd, 0x0F :: []⟩ :: [] := by decide
theorem witness_UndecodableRequestsAreRefused :
    ({ State.reset with pending := [.request ⟨.unit, [0, 0, 0, 0, 8]⟩] } : State).pending =
      .request ⟨.unit, [0, 0, 0, 0, 8]⟩ :: [] ∧
    decode ⟨.unit, [0, 0, 0, 0, 8]⟩ = .error .unassignedUnit := by decide
theorem witness_StepRunsTheDecodedInstruction :
    ({ small with pending := [.request ⟨.cmd, [0x05]⟩] } : State).pending = .request ⟨.cmd, [0x05]⟩ :: [] ∧
    decode ⟨.cmd, [0x05]⟩ = .ok .start := by decide
theorem witness_StepWithNothingPresentedIsIdle : State.reset.pending = [] := rfl
theorem witness_ResetEventDrawsEveryRegister :
    ({ small with pending := [.reset] } : State).pending = .reset :: [] := rfl
theorem witness_ConstructBindsTheIdentity :
    State.reset.device = none ∧ 0 % 4 = 0 ∧ 0 + 0x54 ≤ 2 ^ Config.addrW :=
  ⟨rfl, (validBase_iff 0).mp (by decide)⟩
theorem witness_ConstructIsRefusedTwiceOrOnBadBase :
    small.device ≠ none ∧ State.reset.device = none ∧ (2 % 4 ≠ 0 ∨ 2 ^ Config.addrW < 2 + 0x54) ∧
    (2 ^ Config.addrW % 4 ≠ 0 ∨ 2 ^ Config.addrW < 2 ^ Config.addrW + 0x54) :=
  ⟨by decide, rfl, .inl (by decide), .inr (by omega)⟩
theorem witness_CommandsAreRefusedBeforeConstruct : State.reset.device = none := rfl
theorem witness_RegisterWriteStoresFrameCount :
    small.device = some ⟨[], 0x1000⟩ ∧ 0x1000 % 4 = 0 ∧ OutcomesOk 1 small := by decide
theorem witness_RegisterWriteStoresGainWord :
    small.device = some ⟨[], 0x1000⟩ ∧ 0x1000 % 4 = 0 ∧ OutcomesOk 1 small ∧
    (0x000FFFFF#32).toNat < 2 ^ 20 := by decide
theorem witness_RegisterWriteDrawsReservedBits :
    small.device = some ⟨[], 0x1000⟩ ∧ 0x1000 % 4 = 0 ∧ OutcomesOk 1 small ∧ 2 ^ 20 ≤ (0x00100000#32).toNat ∧
    ∃ w : Word, w.toNat = (Config.reservedDraw small.drawCount).toNat * 2 ^ 20 + (0x00100000#32).toNat % 2 ^ 20 := by
  refine ⟨rfl, rfl, by decide, by decide,
    BitVec.ofNat 32 ((Config.reservedDraw small.drawCount).toNat * 2 ^ 20), ?_⟩
  have := (Config.reservedDraw small.drawCount).isLt
  simp only [BitVec.toNat_ofNat]
  omega
theorem witness_RegisterReadReturnsTheWord :
    small.device = some ⟨[], 0x1000⟩ ∧ 0x1000 % 4 = 0 ∧ OutcomesOk 1 small := by decide
theorem witness_RawAccessOutsideWindowIsRefused :
    small.device = some ⟨[], 0x1000⟩ ∧ 0x1002 % 4 ≠ 0 ∧ 0x1054 % 4 = 0 ∧ 0x1000 + 0x54 ≤ 0x1054 ∧
    0x0FFC % 4 = 0 ∧ 0x0FFC < 0x1000 := by decide
theorem witness_RawReadAfterWrite :
    small.device = some ⟨[], 0x1000⟩ ∧ 0x1000 % 4 = 0 ∧ OutcomesOk 2 small ∧ 0x1050 % 4 = 0 ∧ 0x1000 ≤ 0x1050 ∧
    0x1050 < 0x1000 + 0x54 := by decide
theorem witness_BusWriteChangesOneRegister : 0x1000 % 4 = 0 ∧ OutcomesOk 1 small := by decide
theorem witness_FailedRawAccessStoresNothing :
    (failing 0).device = some ⟨[], 0x1000⟩ ∧ 0x1000 % 4 = 0 ∧ 0x1000 ≤ 0x1000 ∧ 0x1000 < 0x1000 + 0x54 ∧
    FailsAt 0 (failing 0) := by decide
theorem witness_ConfigureWritesFrameCountThenGain :
    small.device = some ⟨[], 0x1000⟩ ∧ 0x1000 % 4 = 0 ∧ OutcomesOk 2 small ∧ example6.channel.toNat < 10 ∧
    example6.pol.toNat < 2 ∧ example6.inputFrameSize ≠ 0 ∧ encodeGain example6.gain = .ok ⟨4, 34711, false⟩ ∧
    (3 : Fin 20).val = example6.channel.toNat + example6.pol.toNat * 10 ∧
    (0x000F4240#32).toNat = example6.sampleRate.toNat / example6.inputFrameSize.toNat ∧
    (0x00087974#32).toNat = (4#4).toNat + 16 * (34711#16).toNat :=
  ⟨rfl, rfl, by decide, by decide, by decide, by decide, encodeGain_two, by decide, by decide, by decide⟩
theorem witness_DeconfigureWritesUnityGain :
    small.device = some ⟨[], 0x1000⟩ ∧ 0x1000 % 4 = 0 ∧ OutcomesOk 2 small ∧ (9#32).toNat < 10 ∧ (1#32).toNat < 2 ∧
    (18#32) ≠ 0 ∧ (19 : Fin 20).val = (9#32).toNat + (1#32).toNat * 10 ∧
    (0x000F4240#32).toNat = (18000000#32).toNat / (18#32).toNat := by decide
theorem witness_BadOperandsChangeNothing :
    small.device ≠ none ∧ 10 ≤ (10#32).toNat ∧ (9#32).toNat < 10 ∧ 2 ≤ (2#32).toNat ∧ (1#32).toNat < 2 ∧
    (18#32) ≠ 0 ∧ encodeGain (.binary64 0) = .error .gain := by decide +kernel
theorem witness_ConfigureStopsAtFailedWrite :
    (failing 1).device = some ⟨[], 0x1000⟩ ∧ 0x1000 % 4 = 0 ∧ example6.channel.toNat < 10 ∧
    example6.pol.toNat < 2 ∧ example6.inputFrameSize ≠ 0 ∧ encodeGain example6.gain = .ok ⟨4, 34711, false⟩ ∧
    (0x000F4240#32).toNat = example6.sampleRate.toNat / example6.inputFrameSize.toNat ∧
    FailsAt 0 (failing 0) ∧ FailsAt 1 (failing 1) ∧ (Instr.deconfigure example6 = .deconfigure example6) :=
  ⟨rfl, rfl, by decide, by decide, by decide, encodeGain_two, by decide, by decide, by decide, rfl⟩
theorem witness_ConfigureLeavesOtherChannels :
    DeviceValid tiny ∧ ∃ t, exec (.configure example6) tiny = .next t :=
  ⟨tiny_valid, exists_next (by decide +kernel)⟩
theorem witness_ConfigureThenStatus :
    small.device = some ⟨[], 0x1000⟩ ∧ 0x1000 % 4 = 0 ∧ BusHealthy small ∧ example6.channel.toNat < 10 ∧
    example6.pol.toNat < 2 ∧ example6.inputFrameSize ≠ 0 ∧ encodeGain example6.gain = .ok ⟨4, 34711, false⟩ ∧
    (3 : Fin 20).val = example6.channel.toNat + example6.pol.toNat * 10 :=
  ⟨rfl, rfl, by decide, by decide, by decide, by decide, encodeGain_two, by decide⟩
theorem exists_defaultFrameCount :
    ∃ fc : Word, fc.toNat = Config.defaultSampleRate.toNat / Config.defaultInputFrameSize.toNat := by
  refine ⟨BitVec.ofNat 32 (Config.defaultSampleRate.toNat / Config.defaultInputFrameSize.toNat), ?_⟩
  have h := Nat.div_le_self Config.defaultSampleRate.toNat Config.defaultInputFrameSize.toNat
  rw [BitVec.toNat_ofNat, Nat.mod_eq_of_lt (lt_of_le_of_lt h Config.defaultSampleRate.isLt)]
theorem witness_RecoverDeterminesEveryRegister :
    small.device = some ⟨[], 0x1000⟩ ∧ 0x1000 % 4 = 0 ∧ OutcomesOk 40 small ∧
    ∃ fc : Word, fc.toNat = Config.defaultSampleRate.toNat / Config.defaultInputFrameSize.toNat :=
  ⟨rfl, rfl, by decide, exists_defaultFrameCount⟩
theorem witness_RecoverStopsAtFailedWrite :
    (failing 39).device = some ⟨[], 0x1000⟩ ∧ 0x1000 % 4 = 0 ∧ 39 < 40 ∧ FailsAt 39 (failing 39) ∧
    FailsAt 0 (failing 0) ∧
    ∃ fc : Word, fc.toNat = Config.defaultSampleRate.toNat / Config.defaultInputFrameSize.toNat :=
  ⟨rfl, rfl, by decide, by decide, by decide, exists_defaultFrameCount⟩
theorem witness_StartIsInert : small.device ≠ none := by decide
theorem witness_StopIsInert : small.device ≠ none := by decide
theorem witness_StatusReportsEveryRegister :
    small.device = some ⟨[], 0x1000⟩ ∧ 0x1000 % 4 = 0 ∧ OutcomesOk 21 small ∧
    (0#32).toNat = small.fc.toNat * 18 % 2 ^ 32 := by decide
theorem witness_StatusStopsAtFailedRead :
    (failing 20).device = some ⟨[], 0x1000⟩ ∧ 0x1000 % 4 = 0 ∧ 20 < 21 ∧ FailsAt 20 (failing 20) ∧
    FailsAt 0 (failing 0) ∧ FailsAt 19 (failing 19) := by decide
theorem witness_StatusIgnoresReservedBits :
    DeviceValid tiny ∧
    (∀ i : Fin 20, tiny.fs[i].toNat % 2 ^ 20 = (Vector.replicate 20 0xFFF00000#32)[i].toNat % 2 ^ 20) ∧
    (∃ t, exec (.status true) tiny = .next t) ∧
    ∃ t, exec (.status true) { tiny with fs := Vector.replicate 20 0xFFF00000#32 } = .next t :=
  ⟨tiny_valid, by decide, exists_next (by decide +kernel), exists_next (by decide +kernel)⟩
theorem witness_EncodeGainUnitReplies :
    encodeGain (.binary64 0x4000000000000000) = .ok ⟨4, 34711, false⟩ ∧ encodeGain (.binary64 0) = .error .gain :=
  ⟨encodeGain_two, by decide +kernel⟩
theorem witness_PackBuildsTheWord : (0x00069943#32).toNat = 3 % 16 + 16 * (92564 % 65536) := by decide
theorem witness_UnpackTakesTheFields :
    (3#4).toNat = (0xABC87973#32).toNat % 16 ∧ (34711#16).toNat = (0xABC87973#32).toNat / 16 % 65536 := by decide
theorem witness_FrameCountOfDivides : (18#32) ≠ 0 ∧ (1000000#32).toNat = (18000017#32).toNat / (18#32).toNat := by
  decide
theorem witness_SampleRateOfMultiplies :
    (4294967292#32).toNat = (238609294#32).toNat * 18 % 2 ^ 32 ∧ NoWrap 238609294 := by decide
theorem witness_SampleRateRoundTrip : (9#32) ≠ 0 := by decide
theorem witness_RegIndexIsABijection : (19 : Fin 20).val = (9 : Fin 10).val + (1 : Fin 2).val * 10 := by decide
theorem witness_RegAddrIsBasePlusOffset : small.device = some ⟨[], 0x1000⟩ := rfl
theorem witness_BinaryGainsDenoteTheirValue :
    (0x7FF8000000000000#64).toNat / 2 ^ 52 % 2 ^ 11 = 2047 ∧ (0#64).toNat / 2 ^ 52 % 2 ^ 11 ≠ 2047 ∧
    (0x7F800000#32).toNat / 2 ^ 23 % 2 ^ 8 = 255 ∧ (0x3F800000#32).toNat / 2 ^ 23 % 2 ^ 8 ≠ 255 := by decide
theorem unityGain_pos : 0 < realValue unityGain := by norm_num [realValue, surdReal, unityGain, Surd.den]
theorem witness_EncodeGainFollowsExactReals :
    (∀ x, gainValue (.binary64 0x7FF8000000000000) = some x → realValue x ≤ 0) ∧
    gainValue (.real unityGain) = some unityGain ∧ 0 < realValue unityGain := by
  refine ⟨fun x h => ?_, rfl, unityGain_pos⟩
  have hn : gainValue (.binary64 0x7FF8000000000000) = none := by decide +kernel
  rw [hn] at h
  cases h
theorem witness_SaturationIsTheLargestPair :
    gainValue (.real (.surd ⟨3867, 0, 0⟩)) = some (.surd ⟨3867, 0, 0⟩) ∧
    encodeGain (.real (.surd ⟨3867, 0, 0⟩)) = .ok ⟨14, 65535, true⟩ := by decide +kernel
theorem witness_EncoderProducesNormalisedPairs :
    encodeGain (.binary64 0x4000000000000000) = .ok ⟨4, 34711, false⟩ := encodeGain_two
theorem witness_BinaryGainsHaveNoTies :
    (∀ y, (.binary64 0x3FF0000000000000 : Gain) ≠ .real y) ∧
    ∃ x, gainValue (.binary64 0x3FF0000000000000) = some x ∧ 0 < realValue x :=
  ⟨fun _ h => (nomatch h), .surd ⟨2 ^ 52, 0, 2 ^ 52 - 1⟩, by decide +kernel, (realPos_iff _).mp (by decide +kernel)⟩
theorem witness_BinaryGainsInRangeScaleBound :
    (∀ x, (.binary64 0x4000000000000000 : Gain) ≠ .real x) ∧
    encodeGain (.binary64 0x4000000000000000) = .ok ⟨4, 34711, false⟩ ∧
    (⟨4, 34711, false⟩ : Encoded).outOfRange = false :=
  ⟨fun _ h => (nomatch h), encodeGain_two, rfl⟩
theorem witness_DecodeThenEncodeIsIdentity :
    Canonical 0 1 ∧ Canonical 0 65535 ∧ Canonical 1 32768 ∧ Canonical 14 65535 := by decide
theorem witness_DecodeThenEncodeOnEveryPair :
    (1 ≤ (65535#16).toNat ∧ (65535#16).toNat * 2 ^ (14#4).toNat ≤ 65535 * 16384 ∧
      (32767#16).toNat * 2 ^ (15#4).toNat ≤ 65535 * 16384) ∧
    ((14#4).toNat + 1 = (15#4).toNat ∧ (0#4).toNat + 1 = (1#4).toNat) ∧ 32768 ≤ (32768#16).toNat := by decide
theorem witness_EncodeThenDecodeIsWithinOneUnit :
    encodeGain (.real unityGain) = .ok ⟨3, 34711, false⟩ ∧ realValue unityGain * cNorm ≤ 16384 := by
  refine ⟨by decide +kernel, ?_⟩
  have h : Real.sqrt 5 ≤ 3 := Real.sqrt_le_iff.mpr (by norm_num)
  have h1 : realValue unityGain = 1 := by norm_num [realValue, surdReal, unityGain, Surd.den]
  rw [h1, cNorm_eq]
  linarith
theorem realValue_rat_ne {n m : Int} {d e : Nat} (hn : n ≠ 0) (hm : m = 0) :
    realValue (.surd ⟨n, 0, d⟩) ≠ realValue (.surd ⟨m, 0, e⟩) := by
  have h : ((d + 1 : ℕ) : ℝ) ≠ 0 := by exact_mod_cast Nat.succ_ne_zero d
  simp [realValue, surdReal, Surd.den, hm, hn] at h ⊢
  exact h
theorem witness_DecodedBinaryGainIsCorrectlyRounded :
    BitVec.ofNat 16 65536 = 0 ∧
    (∃ y z, gainValue (decodeGainIn .binary64 15 0) = some y ∧ gainValue (.binary64 0x3FF0000000000000) = some z ∧
      realValue z ≠ realValue y) ∧
    ∃ y z, gainValue (decodeGainIn .binary32 15 0) = some y ∧ gainValue (.binary32 0x3F800000) = some z ∧
      realValue z ≠ realValue y :=
  ⟨by decide,
    ⟨.surd ⟨0, 0, 2 ^ 1074 - 1⟩, .surd ⟨2 ^ 52, 0, 2 ^ 52 - 1⟩, by decide +kernel, by decide +kernel,
      realValue_rat_ne (by norm_num) rfl⟩,
    ⟨.surd ⟨0, 0, 2 ^ 149 - 1⟩, .surd ⟨2 ^ 23, 0, 2 ^ 23 - 1⟩, by decide +kernel, by decide +kernel,
      realValue_rat_ne (by norm_num) rfl⟩⟩
theorem witness_StepKeepsDeviceValid :
    DeviceValid { tiny with pending := [.reset] } ∧ ∃ t, step { tiny with pending := [.reset] } = .next t :=
  ⟨tiny_valid, exists_next rfl⟩
theorem witness_DeviceIdentityNeverChanges :
    (∃ t, step { tiny with pending := [.reset] } = .next t) ∧
    ∃ t, step { State.reset with pending := [.request (encode (.construct [] 0))] } = .next t ∧ t.device ≠ none :=
  ⟨exists_next rfl, _, rfl, nofun⟩
theorem witness_BusTraceOnlyGrows :
    DeviceValid { tiny with pending := [.request (encode .recover)] } ∧
    ∃ t, step { tiny with pending := [.request (encode .recover)] } = .next t :=
  ⟨tiny_valid, exists_next (by decide +kernel)⟩
theorem witness_FaultMarkFollowsDeviceFault : ∃ t, exec .start small = .next t := ⟨_, rfl⟩
theorem witness_ReadersChangeNoRegister :
    (∀ a v, Instr.start ≠ .registerWrite a v) ∧ Instr.start ≠ .recover ∧ (∀ c, Instr.start ≠ .configure c) ∧
    (∀ c, Instr.start ≠ .deconfigure c) ∧ ∃ t, exec .start small = .next t :=
  ⟨nofun, nofun, nofun, nofun, _, rfl⟩
theorem witness_CodecWordsAreKept :
    DeviceValid tiny ∧ (∀ a v, Instr.configure example6 ≠ .registerWrite a v) ∧
    (∃ t, exec (.configure example6) tiny = .next t) ∧ CodecWord tiny.fs[(3 : Fin 20)] ∧ CodecWord 0x00087973 ∧
    CodecWord 0x0007FFF1 :=
  ⟨tiny_valid, nofun, exists_next (by decide +kernel), by decide, by decide, by decide⟩

end Sys2Proof.Tests
end

/-! A property of the state that every update of a command keeps is kept by the command. The one instruction that does
more than these updates is CONSTRUCT, which binds the Device. -/

namespace Sys2Proof.Machine

/-- The property is kept by each update that a command other than CONSTRUCT makes. -/
structure KeptByUpdates (P : State → Prop) : Prop where
  dropOutcome : ∀ s, P s → P (dropOutcome s)
  record : ∀ t s, P s → P (record t s)
  writeReg : ∀ r v s, P s → P (writeReg r v s)
  markFault : ∀ s, P s → P (markFault s)
  setResult : ∀ r s, P s → P { s with result := r }

/-- The state in which a sequence of transactions completes or stops has the property. -/
def BusResult.EndsIn {α : Type} (P : State → Prop) : BusResult α → Prop
  | .done _ s => P s
  | .failed _ _ s => P s
  | .refused _ => True

/-- The next state of an outcome, if there is one, has the property. -/
def NextIn (P : State → Prop) (o : Host.Outcome State Fault Refusal) : Prop := ∀ t, o = .next t → P t

theorem BusResult.EndsIn.andThen {α β : Type} {P : State → Prop} {x : BusResult α} {k : α → State → BusResult β}
    (hx : x.EndsIn P) (hk : ∀ a s, P s → (k a s).EndsIn P) : (x.andThen k).EndsIn P := by
  cases x with
  | done a s => exact hk a s hx
  | failed addr dir s => exact hx
  | refused r => trivial

theorem BusResult.EndsIn.map {α β : Type} {P : State → Prop} {x : BusResult α} {f : α → β} (hx : x.EndsIn P) :
    (x.andThen fun a s => .done (f a) s).EndsIn P :=
  hx.andThen fun _ _ hs => hs

section
variable {P : State → Prop} (hP : KeptByUpdates P) {s : State} (hs : P s)
include hP hs

/-! ## Transactions -/

theorem busWrite_endsIn (base addr : Nat) (v : Word) : (busWrite base addr v s).EndsIn P := by
  have hd := hP.dropOutcome s hs
  cases h : busWrite base addr v s with
  | done u t =>
    obtain ⟨r, -, -, rfl⟩ := busWrite_done h
    exact hP.record _ _ (hP.writeReg r v _ hd)
  | failed a dir t =>
    obtain ⟨-, -, -, rfl⟩ := busWrite_failed h
    exact hd
  | refused r => trivial

theorem busRead_endsIn (base addr : Nat) : (busRead base addr s).EndsIn P := by
  have hd := hP.dropOutcome s hs
  cases h : busRead base addr s with
  | done w t =>
    obtain ⟨r, -, -, -, rfl⟩ := busRead_done h
    exact hP.record _ _ hd
  | failed a dir t =>
    obtain ⟨-, -, -, rfl⟩ := busRead_failed h
    exact hd
  | refused r => trivial

theorem configureWrites_endsIn (base : Nat) (c : ValidConfig) : (configureWrites base c s).EndsIn P :=
  (busWrite_endsIn hP hs _ _ _).andThen fun _ _ h1 =>
    (busWrite_endsIn hP h1 _ _ _).map

omit hs in
theorem recoverLoop_endsIn (base : Nat) (pairs : List (Fin 2 × Fin 10)) :
    ∀ s, P s → (recoverLoop base pairs s).EndsIn P := by
  induction pairs with
  | nil => exact fun _ hs => hs
  | cons p rest ih => exact fun _ hs => (configureWrites_endsIn hP hs _ _).andThen fun _ => ih

omit hs in
theorem statusLoop_endsIn (base : Nat) (indices : List (Fin 20)) :
    ∀ s, P s → (statusLoop base indices s).EndsIn P := by
  induction indices with
  | nil => exact fun _ hs => hs
  | cons i rest ih =>
    exact fun _ hs => (busRead_endsIn hP hs _ _).andThen fun _ s1 h1 => (ih s1 h1).map

theorem statusReads_endsIn (base : Nat) : (statusReads base s).EndsIn P :=
  (statusLoop_endsIn hP base _ s hs).andThen fun _ _ h1 =>
    (busRead_endsIn hP h1 _ _).map

/-! ## The end of a command -/

theorem reply_nextIn (r : Result) : NextIn P (reply r s) := by
  rintro t ⟨⟩
  exact hP.setResult _ s hs

omit hs in
theorem endCommand_nextIn {x : BusResult Value} (hx : x.EndsIn P) : NextIn P (endCommand x) := by
  intro t h
  obtain ⟨v, u, rfl, rfl⟩ | ⟨a, dir, u, rfl, -, rfl⟩ := endCommand_next h
  · exact hP.setResult _ u hx
  · exact hP.setResult _ _ (hP.markFault u hx)

omit hP hs in
theorem withDevice_nextIn {k : Device → Host.Outcome State Fault Refusal} (hk : ∀ d, NextIn P (k d)) :
    NextIn P (withDevice s k) := by
  intro t h
  obtain ⟨d, -, h⟩ := withDevice_next h
  exact hk d t h

theorem configureWith_nextIn (c : VccConfig) : NextIn P (configureWith c s) := by
  intro t h
  obtain ⟨d, -, ⟨info, -, rfl⟩ | ⟨v, -, h⟩⟩ := configureWith_next h
  · exact hP.setResult _ s hs
  · exact endCommand_nextIn hP (configureWrites_endsIn hP hs _ _).map t h

/-! ## Instructions -/

/-- Every instruction but CONSTRUCT keeps the property. -/
theorem exec_nextIn (i : Instr) (hi : ∀ name base, i ≠ .construct name base) : NextIn P (exec i s) := by
  have answer := reply_nextIn hP hs
  cases i with
  | construct name base => exact absurd rfl (hi name base)
  | registerWrite addr v =>
    exact withDevice_nextIn fun _ => endCommand_nextIn hP (busWrite_endsIn hP hs _ _ _).map
  | registerRead addr =>
    exact withDevice_nextIn fun _ => endCommand_nextIn hP (busRead_endsIn hP hs _ _).map
  | recover =>
    exact withDevice_nextIn fun _ => endCommand_nextIn hP (recoverLoop_endsIn hP _ _ s hs).map
  | configure c => exact configureWith_nextIn hP hs c
  | start => exact withDevice_nextIn fun _ => answer _
  | stop force => exact withDevice_nextIn fun _ => answer _
  | deconfigure c => exact configureWith_nextIn hP hs _
  | status clear =>
    exact withDevice_nextIn fun _ => endCommand_nextIn hP (statusReads_endsIn hP hs _).map
  | encodeGain g =>
    show NextIn P (execEncodeGain g s)
    unfold execEncodeGain
    split
    · exact answer _
    · exact answer _
  | decodeGain shift scale => exact answer _
  | pack shift scale => exact answer _
  | unpack w => exact answer _
  | frameCountOf rate size =>
    show NextIn P (execFrameCountOf rate size s)
    unfold execFrameCountOf
    split
    · exact answer _
    · exact answer _
  | sampleRateOf f => exact answer _
  | regIndex channel pol => exact answer _
  | regAddr index => exact withDevice_nextIn fun _ => answer _

end

/-! ## The Device -/

/-- No update of a command touches the Device (10_state.md R21). -/
theorem device_keptByUpdates (d : Option Device) : KeptByUpdates fun s => s.device = d where
  dropOutcome _ hs := hs
  record _ _ hs := hs
  writeReg r v s hs := (writeReg_device r v s).trans hs
  markFault _ hs := hs
  setResult _ _ hs := hs

/-- CONSTRUCT answers a next state only where no Device is, and on a base that meets the constraint. -/
theorem execConstruct_next {name : List Byte} {base : Nat} {s t : State}
    (h : exec (.construct name base) s = .next t) :
    s.device = none ∧ base % 4 = 0 ∧ base + 0x54 ≤ 2 ^ Config.addrW ∧
      t = { s with device := some ⟨name, base⟩, result := some (.ok .none) } := by
  change execConstruct name base s = .next t at h
  unfold execConstruct at h
  split at h
  · cases h
  · rename_i hd
    split at h
    · rename_i hb
      obtain ⟨halign, hfits⟩ := (validBase_iff base).mp hb
      cases h
      exact ⟨hd, halign, hfits, rfl⟩
    · cases h

/-- What an instruction does to the Device: nothing, or CONSTRUCT binds it where there is none. -/
theorem exec_device {i : Instr} {s t : State} (h : exec i s = .next t) :
    t.device = s.device ∨
    ∃ name base, i = .construct name base ∧ s.device = none ∧ base % 4 = 0 ∧ base + 0x54 ≤ 2 ^ Config.addrW ∧
      t.device = some ⟨name, base⟩ := by
  by_cases hc : ∃ name base, i = .construct name base
  · obtain ⟨name, base, rfl⟩ := hc
    obtain ⟨hd, halign, hfits, rfl⟩ := execConstruct_next h
    exact .inr ⟨name, base, rfl, hd, halign, hfits, rfl⟩
  · have hi : ∀ name base, i ≠ .construct name base := fun name base e => hc ⟨name, base, e⟩
    exact .inl (exec_nextIn (device_keptByUpdates s.device) rfl i hi t h)

theorem DeviceValid.of_device_eq {s t : State} (hs : DeviceValid s) (h : t.device = s.device) : DeviceValid t :=
  fun d hd => hs d (h ▸ hd)

theorem exec_keeps_deviceValid {i : Instr} {s t : State} (hs : DeviceValid s) (h : exec i s = .next t) :
    DeviceValid t := by
  obtain hd | ⟨name, base, -, -, halign, hfits, hd⟩ := exec_device h
  · exact hs.of_device_eq hd
  · intro d hd'
    obtain rfl : ⟨name, base⟩ = d := Option.some.inj (hd.symm.trans hd')
    exact ⟨halign, hfits⟩

/-- Settles O50, by the three things a step can do: idle, a reset event, an instruction. -/
theorem stepKeepsDeviceValid : Obligations.StepKeepsDeviceValid := by
  intro s t hs h
  obtain ⟨-, rfl⟩ | ⟨rest, -, rfl⟩ | ⟨f, rest, i, -, -, h⟩ := step_cases h
  · exact hs
  · exact hs.of_device_eq rfl
  · have hs' : DeviceValid { s with pending := rest } := hs.of_device_eq rfl
    exact exec_keeps_deviceValid hs' h

end Sys2Proof.Machine

/-! The value of a finite binary gain, for every width of fraction and exponent (00_scope.md R10, G1). -/

namespace Sys2Proof.Machine

theorem binaryValue_none {mbits ebits bias bits : Nat} (h : bits / 2 ^ mbits % 2 ^ ebits = 2 ^ ebits - 1) :
    binaryValue mbits ebits bias bits = none := by
  simp only [binaryValue, if_pos h]

/-- The codec holds a power of two as a numerator or as a denominator, by the sign of its exponent. -/
theorem two_pow_sub_div_two_pow_sub (x bias : Nat) :
    (2 : ℝ) ^ (x - bias) / 2 ^ (bias - x) = 2 ^ ((x : ℤ) - bias) := by
  have h : (x : ℤ) - bias = (x - bias : ℕ) - (bias - x : ℕ) := by omega
  rw [h, zpow_sub₀ two_ne_zero, zpow_natCast, zpow_natCast]

/-- The sign bit is the parity of what stands above the exponent. -/
theorem ite_mod_two_neg (n : Nat) (z : Int) : (if n % 2 = 1 then -z else z) = (-1) ^ n * z := by
  rw [neg_one_pow_eq_pow_mod_two]
  rcases Nat.mod_two_eq_zero_or_one n with h | h <;> simp [h]

/-- Sign times significand times the power of two of the unit in the last place, subnormals included. -/
theorem binaryValue_some {mbits ebits bias bits : Nat} (h : bits / 2 ^ mbits % 2 ^ ebits ≠ 2 ^ ebits - 1) :
    ∃ x, binaryValue mbits ebits bias bits = some x ∧
      surdReal x = (-1) ^ (bits / 2 ^ (mbits + ebits)) *
        ((bits % 2 ^ mbits + (if bits / 2 ^ mbits % 2 ^ ebits = 0 then 0 else 2 ^ mbits) : ℕ) : ℝ) *
        (2 : ℝ) ^ ((max (bits / 2 ^ mbits % 2 ^ ebits) 1 : ℕ) - (bias : ℤ)) := by
  simp only [binaryValue, if_neg h]
  refine ⟨_, rfl, ?_⟩
  generalize bits / 2 ^ mbits % 2 ^ ebits = ex, bits % 2 ^ mbits = frac, bits / 2 ^ (mbits + ebits) = sign
  have hm : (if ex = 0 then frac else frac + 2 ^ mbits) = frac + (if ex = 0 then 0 else 2 ^ mbits) := by
    split <;> rfl
  have hden : 2 ^ (bias - max ex 1) - 1 + 1 = 2 ^ (bias - max ex 1) := Nat.sub_add_cancel Nat.one_le_two_pow
  rw [hm, ite_mod_two_neg, surdReal, Surd.den, hden, ← two_pow_sub_div_two_pow_sub]
  push_cast
  ring

/-- Settles O42: `binaryValue` at the widths of the two formats. -/
theorem binaryGainsDenoteTheirValue : Obligations.BinaryGainsDenoteTheirValue := by
  refine ⟨fun b => ⟨fun h => ?_, fun h => ?_⟩, fun b => ⟨fun h => ?_, fun h => ?_⟩⟩
  · rw [gainValue, binaryValue_none h, Option.map_none]
  · obtain ⟨x, hx, hv⟩ := binaryValue_some (bias := 1075) h
    exact ⟨.surd x, by rw [gainValue, hx, Option.map_some], by exact_mod_cast hv⟩
  · rw [gainValue, binaryValue_none h, Option.map_none]
  · obtain ⟨x, hx, hv⟩ := binaryValue_some (bias := 150) h
    exact ⟨.surd x, by rw [gainValue, hx, Option.map_some], by exact_mod_cast hv⟩

end Sys2Proof.Machine

/-! What a bus write and a step leave unchanged (10_state.md R21, R35). -/

namespace Sys2Proof.Machine

theorem nextOutcome_eq_ok {s : State} (h : OutcomesOk 1 s) : nextOutcome s = .ok := by
  unfold nextOutcome
  cases hs : s.busScript with
  | nil => rfl
  | cons o rest => exact h o (by simp [hs])

theorem writeReg_fs_getElem_ne {i j : Fin 20} (hij : j ≠ i) (v : Word) (s : State) :
    (writeReg (.fs i) v s).fs[j] = s.fs[j] := by
  have hval : i.val ≠ j.val := fun e => hij (Fin.ext e.symm)
  by_cases h : rsvdField v = 0
  · rw [writeReg_fs_exact i v s h]
    exact Vector.getElem_set_ne i.isLt j.isLt hval
  · rw [writeReg_fs_draw i v s h]
    exact Vector.getElem_set_ne i.isLt j.isLt hval

/-- Settles O18: the address selects its own register, and storing there leaves the others. -/
theorem busWriteChangesOneRegister : Obligations.BusWriteChangesOneRegister := by
  intro s base v hb hok
  have ho := nextOutcome_eq_ok hok
  refine ⟨⟨_, busWrite_addrOf .fc v hb ho, rfl⟩, fun i => ?_⟩
  have haddr : base + 4 + 4 * i.val = addrOf base (.fs i) := by
    simp only [addrOf, regAddr, Config.offFs, Config.regStride, Nat.mul_comm]
  rw [haddr]
  exact ⟨_, busWrite_addrOf (.fs i) v hb ho, by simp, fun j hij => writeReg_fs_getElem_ne hij v _⟩

/-- Settles O52: of the three things a step can do only CONSTRUCT touches the Device, and only where there is none. -/
theorem deviceIdentityNeverChanges : Obligations.DeviceIdentityNeverChanges := by
  intro s t h
  have kept (hd : t.device = s.device) : (∀ d, s.device = some d → t.device = some d) ∧
      (s.device = none → t.device ≠ none → ∃ f rest name base, s.pending = .request f :: rest ∧
        decode f = .ok (.construct name base) ∧ t.device = some ⟨name, base⟩) :=
    ⟨fun _ hs => hd.trans hs, fun hs ht => absurd (hd.trans hs) ht⟩
  obtain ⟨-, rfl⟩ | ⟨rest, -, rfl⟩ | ⟨f, rest, i, hp, hf, h⟩ := step_cases h
  · exact kept rfl
  · exact kept rfl
  · obtain hd | ⟨name, base, rfl, hnone, -, -, hd⟩ := exec_device h
    · exact kept hd
    · exact ⟨fun _ hs => (nomatch hnone.symm.trans hs), fun _ _ => ⟨f, rest, name, base, hp, hf, hd⟩⟩

end Sys2Proof.Machine

/-! Two runs of STATUS from states that differ only in reserved bits make the same transactions with the same outcomes
and decode the same gains (10_state.md R24 (d)). -/

namespace Sys2Proof.Machine

theorem unpack_eq_of_mod {v w : Word} (h : v.toNat % 2 ^ 20 = w.toNat % 2 ^ 20) : unpack v = unpack w := by
  have hshift : shiftField v = shiftField w := by
    apply BitVec.eq_of_toNat_eq
    simp only [shiftField, BitVec.extractLsb'_toNat, Config.shiftLsb, Config.shiftW, Nat.shiftRight_zero]
    omega
  have hscale : scaleField v = scaleField w := by
    apply BitVec.eq_of_toNat_eq
    simp only [scaleField, BitVec.extractLsb'_toNat, Config.scaleLsb, Config.scaleW, Nat.shiftRight_eq_div_pow]
    omega
  rw [unpack, unpack, hshift, hscale]

/-- What STATUS can see of a state is the same in both. -/
structure StatusAlike (s s' : State) : Prop where
  fc : s.fc = s'.fc
  gains : ∀ i : Fin 20, decodeWord s.fs[i] = decodeWord s'.fs[i]
  busScript : s.busScript = s'.busScript

/-- The two sequences end in the same way: with related values in alike states, or at the same failed transaction. -/
def BusResult.Alike {α : Type} (R : α → α → Prop) : BusResult α → BusResult α → Prop
  | .done a s, .done a' s' => R a a' ∧ StatusAlike s s'
  | .failed addr dir _, .failed addr' dir' _ => addr = addr' ∧ dir = dir'
  | .refused r, .refused r' => r = r'
  | _, _ => False

theorem BusResult.Alike.andThen {α β : Type} {R : α → α → Prop} {Q : β → β → Prop} {x x' : BusResult α}
    {k k' : α → State → BusResult β} (hx : x.Alike R x')
    (hk : ∀ a a' s s', R a a' → StatusAlike s s' → (k a s).Alike Q (k' a' s')) :
    (x.andThen k).Alike Q (x'.andThen k') := by
  cases x with
  | done a s =>
    cases x' with
    | done a' s' =>
      obtain ⟨ha, hs⟩ := hx
      exact hk a a' s s' ha hs
    | failed | refused => exact hx.elim
  | failed addr dir s =>
    cases x' with
    | failed => exact hx
    | done | refused => exact hx.elim
  | refused r =>
    cases x' with
    | refused => exact hx
    | done | failed => exact hx.elim

theorem endCommand_alike {x x' : BusResult Value} (hx : x.Alike Eq x') {t t' : State}
    (h : endCommand x = .next t) (h' : endCommand x' = .next t') : t.result = t'.result := by
  obtain ⟨v, u, rfl, rfl⟩ | ⟨addr, dir, u, rfl, -, rfl⟩ := endCommand_next h <;>
    obtain ⟨v', u', rfl, rfl⟩ | ⟨addr', dir', u', rfl, -, rfl⟩ := endCommand_next h'
  · obtain ⟨rfl, -⟩ := hx
    rfl
  · exact hx.elim
  · exact hx.elim
  · obtain ⟨rfl, rfl⟩ := hx
    rfl

theorem StatusAlike.dropOutcome {s s' : State} (h : StatusAlike s s') :
    StatusAlike (dropOutcome s) (dropOutcome s') :=
  ⟨h.fc, h.gains, congrArg List.tail h.busScript⟩

theorem StatusAlike.record {s s' : State} (h : StatusAlike s s') (x x' : Transaction) :
    StatusAlike (record x s) (record x' s') :=
  ⟨h.fc, h.gains, h.busScript⟩

section
variable {base : Nat} (hb : base % 4 = 0)
include hb

/-- Reads of one register from alike states are alike in whatever its two words have in common. -/
theorem busRead_alike {R : Word → Word → Prop} {s s' : State} (r : Reg) (h : StatusAlike s s')
    (hR : R (readReg s r) (readReg s' r)) :
    (busRead base (addrOf base r) s).Alike R (busRead base (addrOf base r) s') := by
  have ho : nextOutcome s = nextOutcome s' := by simp only [nextOutcome, h.busScript]
  simp only [busRead, windowReg_addrOf base r hb, ho]
  cases nextOutcome s' with
  | ok => exact ⟨hR, h.dropOutcome.record _ _⟩
  | fault => exact ⟨rfl, rfl⟩

theorem statusLoop_alike (indices : List (Fin 20)) :
    ∀ s s', StatusAlike s s' → (statusLoop base indices s).Alike Eq (statusLoop base indices s') := by
  induction indices with
  | nil => exact fun _ _ h => ⟨rfl, h⟩
  | cons i rest ih =>
    intro s s' h
    refine (busRead_alike hb (.fs i) (R := fun w w' => decodeWord w = decodeWord w') h (h.gains i)).andThen ?_
    intro w w' s1 s1' hw h1
    refine (ih s1 s1' h1).andThen ?_
    rintro gains _ s2 s2' rfl h2
    exact ⟨by rw [hw], h2⟩

theorem statusReads_alike {s s' : State} (h : StatusAlike s s') :
    (statusReads base s).Alike Eq (statusReads base s') := by
  refine (statusLoop_alike hb _ s s' h).andThen ?_
  rintro gains _ s1 s1' rfl h1
  refine (busRead_alike hb .fc (R := Eq) h1 h1.fc).andThen ?_
  rintro f _ s2 s2' rfl h2
  exact ⟨rfl, h2⟩

end

/-- Settles O32: `decodeWord` ignores the reserved bits, so the two states are alike to STATUS. -/
theorem statusIgnoresReservedBits : Obligations.StatusIgnoresReservedBits := by
  intro s t t' fs' clear hvalid hmod h h'
  obtain ⟨d, hd, h⟩ := withDevice_next h
  obtain ⟨d', hd', h'⟩ := withDevice_next h'
  obtain rfl : d = d' := Option.some.inj (hd.symm.trans hd')
  have halike : StatusAlike s { s with fs := fs' } :=
    ⟨rfl, fun i => by rw [decodeWord, decodeWord, unpack_eq_of_mod (hmod i)], rfl⟩
  refine endCommand_alike ((statusReads_alike (hvalid d hd).1 halike).andThen ?_) h h'
  rintro st _ u u' rfl hu
  exact ⟨rfl, hu⟩

end Sys2Proof.Machine

/-! The words that the encoder makes: reserved bits zero, shift at most 14, the pair normalised (41_gain_codec.md
R132). -/

namespace Sys2Proof.Machine

theorem two_pow_lt_of_lt_ceilLog2 {c r : Int} {k : Nat} (h : (k : Int) < ceilLog2 c r) : 2 ^ k < c := by
  unfold ceilLog2 at h
  split at h
  · have hne : c.toNat - 1 ≠ 0 := by omega
    have hk : k ≤ Nat.log2 (c.toNat - 1) := by omega
    have hpow : 2 ^ k ≤ c.toNat - 1 := (Nat.le_log2 hne).mp hk
    zify at hpow
    omega
  · omega

/-- Above exponent 0 the ceiling of the logarithm is tight: `comb` exceeds half of `int_gain`. -/
theorem half_intGain_lt_comb {x : RealNumber} (h : exponentOf x ≠ 0) :
    (intGain x : ℝ) < 2 * (realValue x * cNorm) := by
  obtain ⟨k, hk⟩ := Nat.exists_eq_succ_of_ne_zero h
  have hraw : (k : Int) < eRaw x := by
    unfold exponentOf at hk
    omega
  have hceil := two_pow_lt_of_lt_ceilLog2 hraw
  rw [combCeil_eq, Int.lt_ceil] at hceil
  push_cast at hceil
  rw [intGain, hk, pow_succ]
  push_cast
  linarith

theorem scaleOf_le (x : RealNumber) : scaleOf x ≤ 65535 := by
  simp only [scaleOf, Config.scaleOne]
  omega

theorem le_scaleOf {x : RealNumber} (h : exponentOf x ≠ 0) : 32767 ≤ scaleOf x := by
  have hpos : 0 < intGain x := Nat.two_pow_pos _
  have hraw : 32767 ≤ scaleRaw x := by
    rw [scaleRaw, combFloor_eq _ _ _ hpos, Int.le_floor, le_div_iff₀ (by exact_mod_cast hpos), Config.scaleOne]
    have hcomb := half_intGain_lt_comb h
    push_cast
    linarith
  simp only [scaleOf, Config.scaleOne]
  omega

@[simp] theorem encodeExact_shift_toNat (x : RealNumber) : (encodeExact x).shift.toNat = exponentOf x := by
  have h : exponentOf x ≤ 14 := exponentOf_le x
  simp only [encodeExact, BitVec.toNat_ofNat]
  omega

@[simp] theorem encodeExact_scale_toNat (x : RealNumber) : (encodeExact x).scale.toNat = scaleOf x := by
  have h := scaleOf_le x
  simp only [encodeExact, BitVec.toNat_ofNat]
  omega

theorem packEncoded_toNat (e : Encoded) : (packEncoded e).toNat = e.shift.toNat + 16 * e.scale.toNat := by
  rw [packEncoded, pack, pack_arith, BitVec.toNat_ofNat]
  omega

theorem rsvdField_eq_zero {w : Word} (h : w.toNat < 2 ^ 20) : rsvdField w = 0 := by
  apply BitVec.eq_of_toNat_eq
  simp only [rsvdField, BitVec.extractLsb'_toNat, Config.scaleLsb, Config.scaleW, Nat.shiftRight_eq_div_pow,
    Nat.div_eq_of_lt h]
  rfl

theorem codecWord_packEncoded (x : RealNumber) : CodecWord (packEncoded (encodeExact x)) := by
  have hshift : exponentOf x ≤ 14 := exponentOf_le x
  have hscale := scaleOf_le x
  have hnorm : exponentOf x = 0 ∨ 32767 ≤ scaleOf x := or_iff_not_imp_left.mpr le_scaleOf
  simp only [CodecWord, packEncoded_toNat, encodeExact_shift_toNat, encodeExact_scale_toNat]
  omega

end Sys2Proof.Machine

/-! What instructions other than a raw write do to the `FS` registers: they store encoded pairs, or nothing. So a
property of the registers that every such store keeps is kept by the instruction. -/

namespace Sys2Proof.Machine

/-- The property of the `FS` registers is kept when the word of an encoded gain is stored in one of them. -/
def KeptByCodecStores (Q : Vector Word 20 → Prop) : Prop :=
  ∀ (fs : Vector Word 20) (i : Fin 20) (x : RealNumber), Q fs → Q (fs.set i (packEncoded (encodeExact x)))

/-- A write to a register's address ends with the word stored, or with nothing stored. -/
theorem busWrite_addrOf_endsIn {Q : Vector Word 20 → Prop} {base : Nat} (hb : base % 4 = 0) (r : Reg) (v : Word)
    {s : State} (hs : Q s.fs) (hw : Q (writeReg r v (dropOutcome s)).fs) :
    (busWrite base (addrOf base r) v s).EndsIn fun t => Q t.fs := by
  simp only [busWrite, windowReg_addrOf base r hb]
  cases nextOutcome s with
  | ok => exact hw
  | fault => exact hs

section
variable {Q : Vector Word 20 → Prop} {s : State}

theorem busRead_endsIn_fs (hs : Q s.fs) (base addr : Nat) : (busRead base addr s).EndsIn fun t => Q t.fs := by
  cases h : busRead base addr s with
  | done w t =>
    obtain ⟨r, -, -, -, rfl⟩ := busRead_done h
    exact hs
  | failed a dir t =>
    obtain ⟨-, -, -, rfl⟩ := busRead_failed h
    exact hs
  | refused r => trivial

theorem statusLoop_endsIn_fs (base : Nat) (indices : List (Fin 20)) :
    ∀ s : State, Q s.fs → (statusLoop base indices s).EndsIn fun t => Q t.fs := by
  induction indices with
  | nil => exact fun _ hs => hs
  | cons i rest ih =>
    exact fun _ hs => (busRead_endsIn_fs hs _ _).andThen fun _ s1 h1 => (ih s1 h1).map

theorem statusReads_endsIn_fs (hs : Q s.fs) (base : Nat) : (statusReads base s).EndsIn fun t => Q t.fs :=
  (statusLoop_endsIn_fs base _ s hs).andThen fun _ _ h1 => (busRead_endsIn_fs h1 _ _).map

theorem reply_nextIn_fs (hs : Q s.fs) (r : Result) : NextIn (fun t => Q t.fs) (reply r s) := by
  rintro t ⟨⟩
  exact hs

theorem endCommand_nextIn_fs {x : BusResult Value} (hx : x.EndsIn fun t => Q t.fs) :
    NextIn (fun t => Q t.fs) (endCommand x) := by
  intro t h
  obtain ⟨v, u, rfl, rfl⟩ | ⟨a, dir, u, rfl, -, rfl⟩ := endCommand_next h
  · exact hx
  · exact hx

variable (hQ : KeptByCodecStores Q)
include hQ

theorem configureWrites_endsIn_fs {base : Nat} (hb : base % 4 = 0) (hs : Q s.fs) (c : ValidConfig) :
    (configureWrites base c s).EndsIn fun t => Q t.fs := by
  refine (busWrite_addrOf_endsIn hb .fc _ hs hs).andThen fun _ s1 h1 => BusResult.EndsIn.map ?_
  obtain ⟨hrsvd, -, -⟩ := codecWord_packEncoded c.gain
  refine busWrite_addrOf_endsIn hb (.fs _) _ h1 ?_
  rw [writeReg_fs_exact _ _ _ (rsvdField_eq_zero hrsvd)]
  exact hQ _ _ _ h1

theorem recoverLoop_endsIn_fs {base : Nat} (hb : base % 4 = 0) (pairs : List (Fin 2 × Fin 10)) :
    ∀ s : State, Q s.fs → (recoverLoop base pairs s).EndsIn fun t => Q t.fs := by
  induction pairs with
  | nil => exact fun _ hs => hs
  | cons p rest ih => exact fun _ hs => (configureWrites_endsIn_fs hQ hb hs _).andThen fun _ => ih

variable (hvalid : DeviceValid s) (hs : Q s.fs)
include hvalid hs

theorem configureWith_nextIn_fs (c : VccConfig) : NextIn (fun t => Q t.fs) (configureWith c s) := by
  intro t h
  obtain ⟨d, hd, ⟨info, -, rfl⟩ | ⟨v, -, h⟩⟩ := configureWith_next h
  · exact hs
  · exact endCommand_nextIn_fs (configureWrites_endsIn_fs hQ (hvalid d hd).1 hs v).map t h

theorem execRecover_nextIn_fs : NextIn (fun t => Q t.fs) (execRecover s) := by
  intro t h
  obtain ⟨d, hd, h⟩ := withDevice_next h
  exact endCommand_nextIn_fs (recoverLoop_endsIn_fs hQ (hvalid d hd).1 _ s hs).map t h

/-- Every instruction but a raw write keeps the property. -/
theorem exec_nextIn_fs (i : Instr) (hi : ∀ a v, i ≠ .registerWrite a v) : NextIn (fun t => Q t.fs) (exec i s) := by
  have answer := reply_nextIn_fs hs
  cases i with
  | construct name base =>
    intro t h
    obtain ⟨-, -, -, rfl⟩ := execConstruct_next h
    exact hs
  | registerWrite addr v => exact absurd rfl (hi addr v)
  | registerRead addr => exact withDevice_nextIn fun _ => endCommand_nextIn_fs (busRead_endsIn_fs hs _ _).map
  | recover => exact execRecover_nextIn_fs hQ hvalid hs
  | configure c => exact configureWith_nextIn_fs hQ hvalid hs c
  | start => exact withDevice_nextIn fun _ => answer _
  | stop force => exact withDevice_nextIn fun _ => answer _
  | deconfigure c => exact configureWith_nextIn_fs hQ hvalid hs _
  | status clear => exact withDevice_nextIn fun _ => endCommand_nextIn_fs (statusReads_endsIn_fs hs _).map
  | encodeGain g =>
    show NextIn _ (execEncodeGain g s)
    unfold execEncodeGain
    split
    · exact answer _
    · exact answer _
  | decodeGain shift scale => exact answer _
  | pack shift scale => exact answer _
  | unpack w => exact answer _
  | frameCountOf rate size =>
    show NextIn _ (execFrameCountOf rate size s)
    unfold execFrameCountOf
    split
    · exact answer _
    · exact answer _
  | sampleRateOf f => exact answer _
  | regIndex channel pol => exact answer _
  | regAddr index => exact withDevice_nextIn fun _ => answer _

end

theorem codecWord_keptByCodecStores (j : Fin 20) : KeptByCodecStores fun fs => CodecWord fs[j] := by
  intro fs i x h
  by_cases hij : i.val = j.val
  · obtain rfl : i = j := Fin.ext hij
    have hget : (fs.set i (packEncoded (encodeExact x)))[i] = packEncoded (encodeExact x) :=
      Vector.getElem_set_self i.isLt
    rw [hget]
    exact codecWord_packEncoded x
  · have hget : (fs.set i (packEncoded (encodeExact x)))[j] = fs[j] := Vector.getElem_set_ne i.isLt j.isLt hij
    rw [hget]
    exact h

/-- Settles O56: the only words the other instructions store in an `FS` register are words of the encoder. -/
theorem codecWordsAreKept : Obligations.CodecWordsAreKept := by
  intro s t i j hvalid hi h hj
  exact exec_nextIn_fs (codecWord_keptByCodecStores j) hvalid hj i hi t h

end Sys2Proof.Machine

/-! Raw access at every address (20_memory.md R53, R57, R66): which addresses select a register, and how a transaction
that is refused or fails ends its command. -/

namespace Sys2Proof.Machine

/-- The address is word aligned and in the window of a Device at `base` (20_memory.md R51, R53, R57). -/
def InWindow (base addr : Nat) : Prop := addr % 4 = 0 ∧ base ≤ addr ∧ addr < base + 0x54

theorem windowReg_misaligned {base addr : Nat} (h : addr % 4 ≠ 0) :
    windowReg base addr = .error .misalignedAddress := if_pos h

theorem windowReg_outside {base addr : Nat} (h : addr % 4 = 0) (hout : addr < base ∨ base + 0x54 ≤ addr) :
    windowReg base addr = .error .addressOutsideWindow := by
  have hnot : ¬ (base ≤ addr ∧ addr < base + 0x54) := by omega
  unfold windowReg
  rw [if_neg (not_not.mpr h), dif_neg hnot]

theorem exists_windowReg_iff {base addr : Nat} : (∃ r, windowReg base addr = .ok r) ↔ InWindow base addr := by
  constructor
  · rintro ⟨r, hr⟩
    have halign : addr % 4 = 0 := by
      by_contra h
      cases (windowReg_misaligned h).symm.trans hr
    have hin : ¬ (addr < base ∨ base + 0x54 ≤ addr) := fun h => by
      cases (windowReg_outside halign h).symm.trans hr
    exact ⟨halign, by omega, by omega⟩
  · rintro ⟨halign, hin⟩
    unfold windowReg
    rw [if_neg (not_not.mpr halign), dif_pos hin]
    split
    · exact ⟨_, rfl⟩
    · exact ⟨_, rfl⟩

/-! ## Transactions that do not complete -/

section
variable {base addr : Nat} {s : State}

theorem busWrite_refused {why : Refusal} (hw : windowReg base addr = .error why) (v : Word) :
    busWrite base addr v s = .refused why := by
  simp only [busWrite, hw]

theorem busRead_refused {why : Refusal} (hw : windowReg base addr = .error why) :
    busRead base addr s = .refused why := by
  simp only [busRead, hw]

theorem busWrite_fault (hin : InWindow base addr) (ho : nextOutcome s = .fault) (v : Word) :
    busWrite base addr v s = .failed addr .write (dropOutcome s) := by
  obtain ⟨r, hr⟩ := exists_windowReg_iff.mpr hin
  simp only [busWrite, hr, ho]

theorem busRead_fault (hin : InWindow base addr) (ho : nextOutcome s = .fault) :
    busRead base addr s = .failed addr .read (dropOutcome s) := by
  obtain ⟨r, hr⟩ := exists_windowReg_iff.mpr hin
  simp only [busRead, hr, ho]

end

theorem nextOutcome_eq_fault {s : State} (h : FailsAt 0 s) : nextOutcome s = .fault := by
  obtain ⟨-, hfault⟩ := h
  rw [nextOutcome, List.headD_eq_head?_getD, List.head?_eq_getElem?, hfault, Option.getD_some]

/-- A command whose first transaction fails keeps nothing but the outcome taken and the report. -/
theorem raiseDeviceFault_dropOutcome (addr : Nat) (dir : Direction) (s : State) :
    raiseDeviceFault addr dir (dropOutcome s) =
      if Config.busFaultDetect then
        .next { s with
          busScript := s.busScript.drop 1, faultMark := true, result := some (.deviceFault addr dir) }
      else .refused .undetectedBusFault := by
  rw [List.drop_one]
  rfl

/-! ## The two raw commands -/

section
variable {s : State} {d : Device} (hd : s.device = some d)
include hd

theorem withDevice_some (k : Device → Host.Outcome State Fault Refusal) : withDevice s k = k d := by
  simp only [withDevice, hd]

theorem exec_registerWrite (addr : Nat) (v : Word) :
    exec (.registerWrite addr v) s =
      endCommand ((busWrite d.base addr v s).andThen fun _ s => .done .none s) :=
  withDevice_some hd _

theorem exec_registerRead (addr : Nat) :
    exec (.registerRead addr) s = endCommand ((busRead d.base addr s).andThen fun w s => .done (.word w) s) :=
  withDevice_some hd _

/-- A raw access is refused for the reason why its address selects no register. -/
theorem exec_rawAccess_refused {addr : Nat} {why : Refusal} (hw : windowReg d.base addr = .error why) (v : Word) :
    exec (.registerWrite addr v) s = .refused why ∧ exec (.registerRead addr) s = .refused why := by
  rw [exec_registerWrite hd, exec_registerRead hd, busWrite_refused hw, busRead_refused hw]
  exact ⟨rfl, rfl⟩

/-- A raw access whose transaction fails reports the failure. -/
theorem exec_rawAccess_fault {addr : Nat} (hin : InWindow d.base addr) (ho : nextOutcome s = .fault) (v : Word) :
    exec (.registerWrite addr v) s = raiseDeviceFault addr .write (dropOutcome s) ∧
      exec (.registerRead addr) s = raiseDeviceFault addr .read (dropOutcome s) := by
  rw [exec_registerWrite hd, exec_registerRead hd, busWrite_fault hin ho, busRead_fault hin ho]
  exact ⟨rfl, rfl⟩

end

/-- Settles O16: the address selects no register, for either of the two reasons. -/
theorem rawAccessOutsideWindowIsRefused : Obligations.RawAccessOutsideWindowIsRefused := by
  intro s d a v hd
  constructor
  · intro hmis
    exact exec_rawAccess_refused hd (windowReg_misaligned hmis) v
  · intro halign hout
    exact exec_rawAccess_refused hd (windowReg_outside halign hout) v

/-- Settles O19: the one transaction fails, so the command ends in `raiseDeviceFault`. -/
theorem failedRawAccessStoresNothing : Obligations.FailedRawAccessStoresNothing := by
  intro s d a v hd halign hlo hhi hfail
  obtain ⟨hwrite, hread⟩ := exec_rawAccess_fault hd ⟨halign, hlo, hhi⟩ (nextOutcome_eq_fault hfail) v
  exact ⟨hwrite.trans (raiseDeviceFault_dropOutcome a .write s), hread.trans (raiseDeviceFault_dropOutcome a .read s)⟩

end Sys2Proof.Machine

/-! What a run of transactions in one direction leaves behind: at most so many entries more in the trace, all in the
window, and after reads the registers as they were (20_memory.md R56, R58, R67). No command mixes the directions. -/

namespace Sys2Proof.Machine

/-- `t` holds the registers, the draw count and the coming inputs of `s`. -/
def SameRegisters (s t : State) : Prop :=
  t.fc = s.fc ∧ t.fs = s.fs ∧ t.drawCount = s.drawCount ∧ t.pending = s.pending

theorem SameRegisters.trans {s t u : State} (h1 : SameRegisters s t) (h2 : SameRegisters t u) : SameRegisters s u := by
  obtain ⟨hfc1, hfs1, hdraw1, hpending1⟩ := h1
  obtain ⟨hfc2, hfs2, hdraw2, hpending2⟩ := h2
  exact ⟨hfc2.trans hfc1, hfs2.trans hfs1, hdraw2.trans hdraw1, hpending2.trans hpending1⟩

/-- What at most `n` transactions in the direction `dir` can have made of `s`. -/
structure Transacted (dir : Direction) (base n : Nat) (s t : State) : Prop where
  trace : ∃ new, t.busTrace = s.busTrace ++ new ∧ new.length ≤ n ∧ ∀ x ∈ new, InWindow base x.addr
  registers : dir = .read → SameRegisters s t

section
variable {dir : Direction} {base n m : Nat} {s t u : State}

/-- No transaction completed. -/
theorem Transacted.of_same (htrace : t.busTrace = s.busTrace) (h : SameRegisters s t) : Transacted dir base n s t :=
  ⟨⟨[], by rw [htrace, List.append_nil], Nat.zero_le n, nofun⟩, fun _ => h⟩

theorem Transacted.trans (h1 : Transacted dir base n s t) (h2 : Transacted dir base m t u) :
    Transacted dir base (n + m) s u := by
  obtain ⟨new1, htrace1, hlen1, hin1⟩ := h1.trace
  obtain ⟨new2, htrace2, hlen2, hin2⟩ := h2.trace
  refine ⟨⟨new1 ++ new2, ?_, ?_, ?_⟩, fun hdir => (h1.registers hdir).trans (h2.registers hdir)⟩
  · rw [htrace2, htrace1, List.append_assoc]
  · rw [List.length_append]
    exact Nat.add_le_add hlen1 hlen2
  · intro x hx
    exact (List.mem_append.mp hx).elim (hin1 x) (hin2 x)

theorem Transacted.mono (h : Transacted dir base n s t) (hnm : n ≤ m) : Transacted dir base m s t := by
  obtain ⟨new, htrace, hlen, hin⟩ := h.trace
  exact ⟨⟨new, htrace, hlen.trans hnm, hin⟩, h.registers⟩

theorem BusResult.EndsIn.imp {α : Type} {P Q : State → Prop} {x : BusResult α} (hx : x.EndsIn P)
    (hPQ : ∀ s, P s → Q s) : x.EndsIn Q := by
  cases x with
  | done a s => exact hPQ s hx
  | failed addr dir s => exact hPQ s hx
  | refused r => trivial

theorem BusResult.EndsIn.mono_transacted {α : Type} {x : BusResult α} (hx : x.EndsIn (Transacted dir base n s))
    (hnm : n ≤ m) : x.EndsIn (Transacted dir base m s) :=
  hx.imp fun _ ht => ht.mono hnm

/-- Transactions that follow each other add up. -/
theorem BusResult.EndsIn.andThen_transacted {α β : Type} {x : BusResult α} {k : α → State → BusResult β}
    (hx : x.EndsIn (Transacted dir base n s)) (hk : ∀ a u, (k a u).EndsIn (Transacted dir base m u)) :
    (x.andThen k).EndsIn (Transacted dir base (n + m) s) := by
  cases x with
  | done a u => exact (hk a u).imp fun _ => hx.trans
  | failed addr _ u => exact Transacted.mono hx (Nat.le_add_right n m)
  | refused r => trivial

end

/-! ## The transactions of each command -/

theorem busWrite_transacted (base addr : Nat) (v : Word) (s : State) :
    (busWrite base addr v s).EndsIn (Transacted .write base 1 s) := by
  cases h : busWrite base addr v s with
  | done u t =>
    obtain ⟨r, hr, -, rfl⟩ := busWrite_done h
    refine ⟨⟨[⟨.write, addr, v⟩], by simp, le_rfl, ?_⟩, nofun⟩
    intro x hx
    obtain rfl := List.mem_singleton.mp hx
    exact exists_windowReg_iff.mp ⟨r, hr⟩
  | failed a dir t =>
    obtain ⟨-, -, -, rfl⟩ := busWrite_failed h
    exact .of_same rfl ⟨rfl, rfl, rfl, rfl⟩
  | refused r => trivial

theorem busRead_transacted (base addr : Nat) (s : State) :
    (busRead base addr s).EndsIn (Transacted .read base 1 s) := by
  cases h : busRead base addr s with
  | done w t =>
    obtain ⟨r, hr, -, -, rfl⟩ := busRead_done h
    refine ⟨⟨[⟨.read, addr, w⟩], rfl, le_rfl, ?_⟩, fun _ => ⟨rfl, rfl, rfl, rfl⟩⟩
    intro x hx
    obtain rfl := List.mem_singleton.mp hx
    exact exists_windowReg_iff.mp ⟨r, hr⟩
  | failed a dir t =>
    obtain ⟨-, -, -, rfl⟩ := busRead_failed h
    exact .of_same rfl ⟨rfl, rfl, rfl, rfl⟩
  | refused r => trivial

theorem configureWrites_transacted (base : Nat) (c : ValidConfig) (s : State) :
    (configureWrites base c s).EndsIn (Transacted .write base 2 s) :=
  (busWrite_transacted base _ _ s).andThen_transacted fun _ u => (busWrite_transacted base _ _ u).map

theorem recoverLoop_transacted (base : Nat) (pairs : List (Fin 2 × Fin 10)) :
    ∀ s, (recoverLoop base pairs s).EndsIn (Transacted .write base (2 * pairs.length) s) := by
  induction pairs with
  | nil => exact fun _ => .of_same rfl ⟨rfl, rfl, rfl, rfl⟩
  | cons p rest ih =>
    intro s
    rw [List.length_cons, Nat.mul_succ, Nat.add_comm]
    exact (configureWrites_transacted base _ s).andThen_transacted fun _ => ih

theorem statusLoop_transacted (base : Nat) (indices : List (Fin 20)) :
    ∀ s, (statusLoop base indices s).EndsIn (Transacted .read base indices.length s) := by
  induction indices with
  | nil => exact fun _ => .of_same rfl ⟨rfl, rfl, rfl, rfl⟩
  | cons i rest ih =>
    intro s
    rw [List.length_cons, Nat.add_comm]
    exact (busRead_transacted base _ s).andThen_transacted fun _ u => (ih u).map

theorem statusReads_transacted (base : Nat) (s : State) :
    (statusReads base s).EndsIn (Transacted .read base 21 s) :=
  (statusLoop_transacted base (List.finRange 20) s).andThen_transacted fun _ u => (busRead_transacted base _ u).map

/-- The commands that issue transactions, with their direction and what they issue from `s`. -/
inductive Issues (base : Nat) (s : State) : Instr → Direction → BusResult Value → Prop
  | registerWrite (addr : Nat) (v : Word) :
    Issues base s (.registerWrite addr v) .write ((busWrite base addr v s).andThen fun _ s => .done .none s)
  | registerRead (addr : Nat) :
    Issues base s (.registerRead addr) .read ((busRead base addr s).andThen fun w s => .done (.word w) s)
  | recover :
    Issues base s .recover .write
      ((recoverLoop base recoverPairs s).andThen fun _ s => .done (.outOfRange false) s)
  | configure (c : VccConfig) (v : ValidConfig) (hv : validate c = .ok v) :
    Issues base s (.configure c) .write
      ((configureWrites base v s).andThen fun oor s => .done (.outOfRange oor) s)
  | deconfigure (c : VccConfig) (v : ValidConfig) (hv : validate { c with gain := .real unityGain } = .ok v) :
    Issues base s (.deconfigure c) .write
      ((configureWrites base v s).andThen fun oor s => .done (.outOfRange oor) s)
  | status (clear : Bool) :
    Issues base s (.status clear) .read ((statusReads base s).andThen fun st s => .done (.status st) s)

/-- The longest command is RECOVER with its 40 writes (70_reset_and_hazards.md R224). -/
theorem Issues.endsIn {base : Nat} {s : State} {i : Instr} {dir : Direction} {x : BusResult Value}
    (h : Issues base s i dir x) : x.EndsIn (Transacted dir base 40 s) := by
  cases h with
  | registerWrite addr v => exact (busWrite_transacted base addr v s).map.mono_transacted (by decide)
  | registerRead addr => exact (busRead_transacted base addr s).map.mono_transacted (by decide)
  | recover => exact (recoverLoop_transacted base recoverPairs s).map
  | configure c v hv => exact (configureWrites_transacted base v s).map.mono_transacted (by decide)
  | deconfigure c v hv => exact (configureWrites_transacted base v s).map.mono_transacted (by decide)
  | status clear => exact (statusReads_transacted base s).map.mono_transacted (by decide)

/-! ## What an instruction can do -/

/-- The instruction ended without a transaction: only the Device and the result may have changed. -/
def AnsweredOnly (s t : State) : Prop := ∃ device result, t = { s with device := device, result := result }

theorem reply_answeredOnly (r : Result) (s : State) : NextIn (AnsweredOnly s) (reply r s) := by
  rintro t ⟨⟩
  exact ⟨s.device, some r, rfl⟩

/-- Every next state of an instruction is an answer alone or the end of the transactions it issued. -/
theorem exec_next {i : Instr} {s t : State} (h : exec i s = .next t) :
    AnsweredOnly s t ∨ ∃ d dir x, s.device = some d ∧ Issues d.base s i dir x ∧ endCommand x = .next t := by
  have answer (r : Result) (h : reply r s = .next t) : AnsweredOnly s t := reply_answeredOnly r s t h
  cases i with
  | construct name base =>
    obtain ⟨-, -, -, rfl⟩ := execConstruct_next h
    exact .inl ⟨_, _, rfl⟩
  | registerWrite addr v =>
    obtain ⟨d, hd, h⟩ := withDevice_next h
    exact .inr ⟨d, _, _, hd, .registerWrite addr v, h⟩
  | registerRead addr =>
    obtain ⟨d, hd, h⟩ := withDevice_next h
    exact .inr ⟨d, _, _, hd, .registerRead addr, h⟩
  | recover =>
    obtain ⟨d, hd, h⟩ := withDevice_next h
    exact .inr ⟨d, _, _, hd, .recover, h⟩
  | configure c =>
    obtain ⟨d, hd, ⟨info, -, rfl⟩ | ⟨v, hv, h⟩⟩ := configureWith_next h
    · exact .inl ⟨_, _, rfl⟩
    · exact .inr ⟨d, _, _, hd, .configure c v hv, h⟩
  | start =>
    obtain ⟨d, -, h⟩ := withDevice_next h
    exact .inl (answer _ h)
  | stop force =>
    obtain ⟨d, -, h⟩ := withDevice_next h
    exact .inl (answer _ h)
  | deconfigure c =>
    obtain ⟨d, hd, ⟨info, -, rfl⟩ | ⟨v, hv, h⟩⟩ := configureWith_next h
    · exact .inl ⟨_, _, rfl⟩
    · exact .inr ⟨d, _, _, hd, .deconfigure c v hv, h⟩
  | status clear =>
    obtain ⟨d, hd, h⟩ := withDevice_next h
    exact .inr ⟨d, _, _, hd, .status clear, h⟩
  | encodeGain g =>
    change execEncodeGain g s = .next t at h
    unfold execEncodeGain at h
    split at h
    · exact .inl (answer _ h)
    · exact .inl (answer _ h)
  | decodeGain shift scale => exact .inl (answer _ h)
  | pack shift scale => exact .inl (answer _ h)
  | unpack w => exact .inl (answer _ h)
  | frameCountOf rate size =>
    change execFrameCountOf rate size s = .next t at h
    unfold execFrameCountOf at h
    split at h
    · exact .inl (answer _ h)
    · exact .inl (answer _ h)
  | sampleRateOf f => exact .inl (answer _ h)
  | regIndex channel pol => exact .inl (answer _ h)
  | regAddr index =>
    obtain ⟨d, -, h⟩ := withDevice_next h
    exact .inl (answer _ h)

/-- The end of a command touches neither the trace nor a register. -/
theorem endCommand_transacted {dir : Direction} {base n : Nat} {s t : State} {x : BusResult Value}
    (hx : x.EndsIn (Transacted dir base n s)) (h : endCommand x = .next t) : Transacted dir base n s t := by
  obtain ⟨v, u, rfl, rfl⟩ | ⟨a, dir', u, rfl, -, rfl⟩ := endCommand_next h
  · exact ⟨hx.trace, hx.registers⟩
  · exact ⟨hx.trace, hx.registers⟩

theorem exec_trace {i : Instr} {s t : State} (h : exec i s = .next t) :
    ∃ new, t.busTrace = s.busTrace ++ new ∧ new.length ≤ 40 ∧
      ∀ x ∈ new, ∃ d, s.device = some d ∧ InWindow d.base x.addr := by
  obtain ⟨device, result, rfl⟩ | ⟨d, dir, x, hd, hx, h⟩ := exec_next h
  · exact ⟨[], (List.append_nil _).symm, Nat.zero_le 40, nofun⟩
  · obtain ⟨new, htrace, hlen, hin⟩ := (endCommand_transacted hx.endsIn h).trace
    exact ⟨new, htrace, hlen, fun x hx => ⟨d, hd, hin x hx⟩⟩

/-- Settles O53: an idle step and a reset event append nothing, an instruction what `exec_trace` says. -/
theorem busTraceOnlyGrows : Obligations.BusTraceOnlyGrows := by
  intro s t _ h
  obtain ⟨-, rfl⟩ | ⟨rest, -, rfl⟩ | ⟨f, rest, i, -, -, h⟩ := step_cases h
  · exact ⟨[], (List.append_nil _).symm, Nat.zero_le 40, nofun⟩
  · exact ⟨[], (List.append_nil _).symm, Nat.zero_le 40, nofun⟩
  · exact exec_trace (s := { s with pending := rest }) h

/-- A command that issues writes is one of four. -/
theorem Issues.read_or_writer {base : Nat} {s : State} {i : Instr} {dir : Direction} {x : BusResult Value}
    (h : Issues base s i dir x) :
    dir = .read ∨ (∃ a v, i = .registerWrite a v) ∨ i = .recover ∨ (∃ c, i = .configure c) ∨
      ∃ c, i = .deconfigure c := by
  cases h with
  | registerWrite addr v => exact .inr (.inl ⟨addr, v, rfl⟩)
  | registerRead addr => exact .inl rfl
  | recover => exact .inr (.inr (.inl rfl))
  | configure c v hv => exact .inr (.inr (.inr (.inl ⟨c, rfl⟩)))
  | deconfigure c v hv => exact .inr (.inr (.inr (.inr ⟨c, rfl⟩)))
  | status clear => exact .inl rfl

/-- Settles O55: an instruction other than the four writers issues reads or nothing. -/
theorem readersChangeNoRegister : Obligations.ReadersChangeNoRegister := by
  intro s t i hwrite hrecover hconfigure hdeconfigure h
  obtain ⟨device, result, rfl⟩ | ⟨d, dir, x, -, hx, h⟩ := exec_next h
  · exact ⟨rfl, rfl, rfl, rfl⟩
  · obtain hread | ⟨a, v, hi⟩ | hi | ⟨c, hi⟩ | ⟨c, hi⟩ := hx.read_or_writer
    · exact (endCommand_transacted hx.endsIn h).registers hread
    · exact absurd hi (hwrite a v)
    · exact absurd hi hrecover
    · exact absurd hi (hconfigure c)
    · exact absurd hi (hdeconfigure c)

end Sys2Proof.Machine

/-! The encoder and the decoder: every field that the encoder writes is read back by the decoder's reader of that field
(30_encoding.md R86, R88; log entries 2 and 3). -/

namespace Sys2Proof

/-! ## Fields -/

/-- `withField_leBytes` for the last field of a frame. -/
theorem withField_leBytes_last {α : Type} (n v : Nat) (k : Nat → List Byte → Except DecodeError α)
    (h : v < 256 ^ n) : withField n (leBytes n v) k = k v [] := by
  simpa using withField_leBytes n v [] k h

theorem withField_byte_cons {α : Type} (b : Byte) (bs : List Byte) (k : Nat → List Byte → Except DecodeError α) :
    withField 1 (b :: bs) k = k b.toNat bs := by
  simp [withField, leValue]

@[simp] theorem finish_nil (i : Instr) : finish i [] = .ok i := rfl

@[simp] theorem noVariant_zero (k : Except DecodeError Instr) : noVariant 0 k = k := rfl

@[simp] theorem withBool_boolByte {α : Type} (b : Bool) (k : Bool → List Byte → Except DecodeError α) :
    withBool (boolByte b) k = k b [] := by
  rw [withBool, boolByte, withField_leBytes_last _ _ _ (by have := b.toNat_le; omega)]
  cases b with
  | false => rfl
  | true => rfl

/-- The tag of a gain selects the reader of its bytes. -/
theorem withGain_gainBytes {α : Type} (g : Gain) (hg : g.fits = true)
    (k : Gain → List Byte → Except DecodeError α) : withGain (gainTag g) (gainBytes g) k = k g [] := by
  cases g with
  | binary64 bits => simp (disch := omega) [withGain, gainTag, gainBytes, withField_leBytes_last]
  | binary32 bits => simp (disch := omega) [withGain, gainTag, gainBytes, withField_leBytes_last]
  | real x =>
    cases x with
    | surd x =>
      simp only [Gain.fits, Surd.fits, Bool.and_eq_true, decide_eq_true_eq] at hg
      obtain ⟨⟨⟨⟨hrat, hrat'⟩, hroot⟩, hroot'⟩, hden⟩ := hg
      simp only [withGain, gainTag, gainBytes, List.append_assoc, withField_leBytes _ _ _ _ (fieldOfInt_lt _),
        withField_leBytes_last 16 _ _ hden, intOfField_fieldOfInt _ hrat hrat', intOfField_fieldOfInt _ hroot hroot']
    | other name =>
      simp only [Gain.fits, decide_eq_true_eq] at hg
      simp only [withGain, gainTag, gainBytes, withField_leBytes_last 8 _ _ hg]

theorem withConfig_configBytes {α : Type} (c : VccConfig) (hc : c.gain.fits = true)
    (k : VccConfig → List Byte → Except DecodeError α) :
    withConfig (gainTag c.gain) (configBytes c) k = k c [] := by
  simp (disch := omega) [withConfig, configBytes, withField_leBytes, withGain_gainBytes _ hc]

/-! ## Frames -/

theorem decode_cmdFrame {opcode variant : Nat} (ho : opcode < 16) (hv : variant < 16) (operands : List Byte) :
    decode (cmdFrame opcode variant operands) = decodeCommand opcode variant operands := by
  simp only [decode, cmdFrame]
  rw [withField_leBytes _ _ _ _ (by omega)]
  congr 1 <;> omega

theorem decode_unitFrame {word selector : Nat} (hw : word < 2 ^ 32) (hs : selector < 256) (operands : List Byte) :
    decode (unitFrame word selector operands) = decodeUnit word selector operands := by
  simp only [decode, unitFrame, List.append_assoc]
  rw [withField_leBytes _ _ _ _ hw, withField_leBytes _ _ _ _ hs]

/-- A command without a Config record, whose upper half of byte 0 is zero. -/
theorem decode_cmdFrame_zero {opcode : Nat} (ho : opcode < 16) (operands : List Byte) :
    decode (cmdFrame opcode 0 operands) = decodeCommand opcode 0 operands :=
  decode_cmdFrame ho (by decide) operands

/-- The tag fits the upper half of byte 0. -/
theorem gainTag_lt (g : Gain) : gainTag g < 16 := by
  unfold gainTag
  split <;> decide

/-! ## Decode after encode -/

theorem decode_encode_construct {name : List Byte} {base : Nat} (hn : name.length < 256) (hb : base < 2 ^ 64) :
    decode (encode (.construct name base)) = .ok (.construct name base) := by
  rw [encode, decode_cmdFrame_zero (by decide)]
  simp only [decodeCommand, noVariant_zero, List.append_assoc]
  rw [withField_leBytes _ _ _ _ hb, withField_leBytes _ _ _ _ hn, if_neg (lt_irrefl _), List.take_length,
    List.drop_length, finish_nil]

/-- The word holds the masked low fields and the operands the bits above them, so both naturals can be rebuilt. -/
theorem decode_encode_pack {shift scale : Nat} (hshift : shift < 2 ^ 36) (hscale : scale < 2 ^ 48) :
    decode (encode (.pack shift scale)) = .ok (.pack shift scale) := by
  have hword : shift % 16 + 16 * (scale % 65536) < 2 ^ 20 := by omega
  have hlow : (shift % 16 + 16 * (scale % 65536)) % 16 + 16 * (shift / 16) = shift := by omega
  have hhigh : (shift % 16 + 16 * (scale % 65536)) / 16 + 65536 * (scale / 65536) = scale := by omega
  rw [encode, decode_unitFrame (by omega) (by decide), decodeUnit, withField_leBytes _ _ _ _ (by omega),
    withField_leBytes_last _ _ _ (by omega), if_pos hword, hlow, hhigh, finish_nil]

theorem decode_encode_decodeGain (shift : BitVec 4) (scale : BitVec 16) :
    decode (encode (.decodeGain shift scale)) = .ok (.decodeGain shift scale) := by
  have hshift : BitVec.ofNat 4 (shift.toNat + 16 * scale.toNat) = shift := by
    apply BitVec.eq_of_toNat_eq
    rw [BitVec.toNat_ofNat]
    omega
  have hscale : BitVec.ofNat 16 ((shift.toNat + 16 * scale.toNat) / 16) = scale := by
    apply BitVec.eq_of_toNat_eq
    rw [BitVec.toNat_ofNat]
    omega
  rw [encode, decode_unitFrame (by omega) (by decide), decodeUnit, hshift, hscale, finish_nil]

theorem decode_encode_regIndex (channel : Fin 10) (pol : Fin 2) :
    decode (encode (.regIndex channel pol)) = .ok (.regIndex channel pol) := by
  have hchannel : Fin.ofNat 10 (channel.val + 10 * pol.val) = channel := by
    ext
    rw [Fin.val_ofNat]
    omega
  have hpol : Fin.ofNat 2 ((channel.val + 10 * pol.val) / 10) = pol := by
    ext
    rw [Fin.val_ofNat]
    omega
  rw [encode, decode_unitFrame (by omega) (by decide), decodeUnit, if_pos (by omega), hchannel, hpol, finish_nil]

theorem decode_encode_regAddr (index : Fin 20) : decode (encode (.regAddr index)) = .ok (.regAddr index) := by
  have hindex : Fin.ofNat 20 (4 * (index.val + 1) / 4 - 1) = index := by
    ext
    rw [Fin.val_ofNat]
    omega
  rw [encode, decode_unitFrame (by omega) (by decide), decodeUnit, if_pos (by omega), hindex, finish_nil]

/-- Settles O1: the frame leads back to its row, and there each field to its operand. -/
theorem decodeOfEncodeIsIdentity : Obligations.DecodeOfEncodeIsIdentity := by
  intro i hi
  cases i with
  | construct name base =>
    simp only [Instr.wellFormed, Bool.and_eq_true, decide_eq_true_eq] at hi
    obtain ⟨hname, hbase⟩ := hi
    exact decode_encode_construct hname hbase
  | registerWrite addr v =>
    simp only [Instr.wellFormed, decide_eq_true_eq] at hi
    rw [encode, decode_cmdFrame_zero (by decide), decodeCommand, noVariant_zero, withField_leBytes _ _ _ _ hi,
      withField_leBytes_last _ _ _ v.isLt, BitVec.ofNat_toNat, BitVec.setWidth_eq, finish_nil]
  | registerRead addr =>
    simp only [Instr.wellFormed, decide_eq_true_eq] at hi
    rw [encode, decode_cmdFrame_zero (by decide), decodeCommand, noVariant_zero, withField_leBytes_last _ _ _ hi,
      finish_nil]
  | recover => rfl
  | configure c =>
    rw [encode, decode_cmdFrame (by decide) (gainTag_lt c.gain), decodeCommand,
      withConfig_configBytes c hi, finish_nil]
  | start => rfl
  | stop force =>
    rw [encode, decode_cmdFrame_zero (by decide), decodeCommand, noVariant_zero, withBool_boolByte, finish_nil]
  | deconfigure c =>
    rw [encode, decode_cmdFrame (by decide) (gainTag_lt c.gain), decodeCommand,
      withConfig_configBytes c hi, finish_nil]
  | status clear =>
    rw [encode, decode_cmdFrame_zero (by decide), decodeCommand, noVariant_zero, withBool_boolByte, finish_nil]
  | encodeGain g =>
    rw [encode, decode_unitFrame (by decide) (by decide), decodeUnit, if_pos rfl,
      withField_leBytes _ _ _ _ ((gainTag_lt g).trans (by decide)), withGain_gainBytes g hi, finish_nil]
  | decodeGain shift scale => exact decode_encode_decodeGain shift scale
  | pack shift scale =>
    simp only [Instr.wellFormed, Bool.and_eq_true, decide_eq_true_eq] at hi
    obtain ⟨hshift, hscale⟩ := hi
    exact decode_encode_pack hshift hscale
  | unpack w =>
    rw [encode, decode_unitFrame w.isLt (by decide), decodeUnit, BitVec.ofNat_toNat, BitVec.setWidth_eq, finish_nil]
  | frameCountOf rate size =>
    rw [encode, decode_unitFrame (by decide) (by decide), decodeUnit, if_pos rfl, withField_leBytes _ _ _ _ rate.isLt,
      withField_leBytes_last _ _ _ size.isLt, BitVec.ofNat_toNat, BitVec.setWidth_eq, BitVec.ofNat_toNat,
      BitVec.setWidth_eq, finish_nil]
  | sampleRateOf f =>
    rw [encode, decode_unitFrame f.isLt (by decide), decodeUnit, BitVec.ofNat_toNat, BitVec.setWidth_eq, finish_nil]
  | regIndex channel pol => exact decode_encode_regIndex channel pol
  | regAddr index => exact decode_encode_regAddr index

/-- A frame is decoded by writing it as the encoding of a well-formed instruction. -/
theorem decode_eq_ok {f : Frame} {i : Instr} (hf : encode i = f) (hi : i.wellFormed = true) : decode f = .ok i :=
  hf ▸ decodeOfEncodeIsIdentity i hi

/-- Settles O4: each of the five frames is the encoding of its instruction. -/
theorem specWordsDecode : Obligations.SpecWordsDecode :=
  ⟨decode_eq_ok (by decide) (by decide), decode_eq_ok (by decide) (by decide), decode_eq_ok (by decide) (by decide),
    decode_eq_ok (by decide) (by decide), decode_eq_ok (by decide) (by decide)⟩

end Sys2Proof

/-! Opcodes without a row, and the two units on indices and addresses (30_encoding.md R84, R85, R90). -/

namespace Sys2Proof.Machine

/-! ## Refusal at decode -/

theorem decodeCommand_unassigned {opcode : Nat} (h : 9 ≤ opcode) (variant : Nat) (bs : List Byte) :
    decodeCommand opcode variant bs = .error .unassignedOpcode := by
  obtain ⟨n, rfl⟩ := Nat.exists_eq_add_of_le' h
  rfl

theorem decode_cmd_cons (b : Byte) (bytes : List Byte) :
    decode ⟨.cmd, b :: bytes⟩ = decodeCommand (b.toNat % 16) (b.toNat / 16) bytes :=
  withField_byte_cons b bytes fun b rest => decodeCommand (b % 16) (b / 16) rest

theorem step_of_decode_error {s : State} {f : Frame} {rest : List Input} {why : DecodeError}
    (hp : s.pending = .request f :: rest) (hd : decode f = .error why) : step s = .refused (.undecodable why) := by
  simp only [step, fetch, hp, hd]

/-- Settles O3: the opcode alone decides the refusal. -/
theorem unassignedOpcodesAreRefused : Obligations.UnassignedOpcodesAreRefused := by
  intro s b bytes rest hb hp
  have hd : decode ⟨.cmd, b :: bytes⟩ = .error .unassignedOpcode :=
    (decode_cmd_cons b bytes).trans (decodeCommand_unassigned hb _ _)
  exact step_of_decode_error hp hd

/-! ## REG_INDEX and REG_ADDR -/

theorem exec_regIndex (channel : Fin 10) (pol : Fin 2) (s : State) :
    exec (.regIndex channel pol) s = reply (.ok (.index (regIndex channel pol))) s := rfl

theorem exec_regAddr {s : State} {d : Device} (hd : s.device = some d) (i : Fin 20) :
    exec (.regAddr i) s = reply (.ok (.address (regAddr d.base i))) s :=
  withDevice_some hd _

theorem regIndex_mod (channel : Fin 10) (pol : Fin 2) : (regIndex channel pol).val % 10 = channel.val := by
  simp only [regIndex]
  omega

theorem regIndex_div (channel : Fin 10) (pol : Fin 2) : (regIndex channel pol).val / 10 = pol.val := by
  simp only [regIndex]
  omega

/-- The remainder and the quotient of an index by 10 are a channel and a pol of that index. -/
theorem regIndex_mod_div (i : Fin 20) : regIndex ⟨i.val % 10, by omega⟩ ⟨i.val / 10, by omega⟩ = i := by
  ext
  simp only [regIndex]
  omega

/-- The index determines the channel and the pol, and every index has them. -/
theorem regIndex_bijective : Function.Bijective fun p : Fin 10 × Fin 2 => regIndex p.1 p.2 := by
  constructor
  · rintro ⟨channel, pol⟩ ⟨channel', pol'⟩ h
    have hchannel : channel = channel' := by
      ext
      rw [← regIndex_mod channel pol, ← regIndex_mod channel' pol']
      exact congrArg (·.val % 10) h
    have hpol : pol = pol' := by
      ext
      rw [← regIndex_div channel pol, ← regIndex_div channel' pol']
      exact congrArg (·.val / 10) h
    rw [hchannel, hpol]
  · intro i
    exact ⟨(⟨i.val % 10, by omega⟩, ⟨i.val / 10, by omega⟩), regIndex_mod_div i⟩

/-- Settles O40: the index is determined by its value, and remainder and quotient by 10 invert the map. -/
theorem regIndexIsABijection : Obligations.RegIndexIsABijection := by
  refine ⟨fun s channel pol i hi => ?_, fun channel pol => ⟨regIndex_mod channel pol, regIndex_div channel pol⟩,
    regIndex_bijective⟩
  obtain rfl : i = regIndex channel pol := Fin.ext hi
  exact exec_regIndex channel pol s

/-- Settles O41: with a Device, REG_ADDR replies with the address of `FS[i]`. -/
theorem regAddrIsBasePlusOffset : Obligations.RegAddrIsBasePlusOffset := by
  intro s d i hd
  exact exec_regAddr hd i

end Sys2Proof.Machine

/-! Raw access that completes (40_register_access.md R110, R111, R112): the register an address selects, the word a
write leaves in it, and the whole next state of each of the two commands. -/

namespace Sys2Proof.Machine

/-! ## Addresses of registers -/

theorem addrOf_fs (base : Nat) (i : Fin 20) : addrOf base (.fs i) = base + 4 + 4 * i.val := by
  simp only [addrOf, regAddr, Config.offFs, Config.regStride, Nat.mul_comm]

theorem addrOf_eq_base {base : Nat} {r : Reg} (h : addrOf base r = base) : r = .fc := by
  cases r with
  | fc => rfl
  | fs i =>
    rw [addrOf_fs] at h
    omega

theorem InWindow.exists_addrOf {base addr : Nat} (hin : InWindow base addr) (hb : base % 4 = 0) :
    ∃ r, addr = addrOf base r := by
  obtain ⟨r, hr⟩ := exists_windowReg_iff.mpr hin
  exact ⟨r, windowReg_ok hb hr⟩

/-! ## Outcomes of several transactions -/

theorem outcomesOk_succ {n : Nat} {s : State} :
    OutcomesOk (n + 1) s ↔ nextOutcome s = .ok ∧ OutcomesOk n (dropOutcome s) := by
  cases h : s.busScript with
  | nil => simp [OutcomesOk, nextOutcome, h]
  | cons o rest => simp [OutcomesOk, nextOutcome, h]

/-! ## Reserved bits -/

theorem rsvdField_toNat (w : Word) : (rsvdField w).toNat = w.toNat / 2 ^ 20 := by
  have hw := w.isLt
  simp only [rsvdField, BitVec.extractLsb'_toNat, Config.scaleLsb, Config.scaleW, Nat.shiftRight_eq_div_pow]
  omega

theorem rsvdField_ne_zero {w : Word} (h : 2 ^ 20 ≤ w.toNat) : rsvdField w ≠ 0 := by
  intro h0
  have hdiv : w.toNat / 2 ^ 20 = 0 := by rw [← rsvdField_toNat, h0]; rfl
  omega

/-- The word that is left when the reserved bits are drawn (10_state.md R24 (b)). -/
theorem drawn_append_toNat (draw : BitVec 12) (v : Word) :
    (draw ++ v.extractLsb' 0 20).toNat = draw.toNat * 2 ^ 20 + v.toNat % 2 ^ 20 := by
  have hlow : v.toNat % 2 ^ 20 < 2 ^ 20 := Nat.mod_lt _ (by decide)
  rw [BitVec.toNat_append, BitVec.extractLsb'_toNat, Nat.shiftRight_zero, ← Nat.shiftLeft_add_eq_or_of_lt hlow,
    Nat.shiftLeft_eq]

/-! ## What a register holds -/

theorem readReg_congr {s t : State} (hfc : t.fc = s.fc) (hfs : t.fs = s.fs) (r : Reg) :
    readReg t r = readReg s r := by
  cases r with
  | fc => exact hfc
  | fs i => simp only [readReg, hfs]

theorem readReg_writeReg_ne {r r' : Reg} (h : r' ≠ r) (v : Word) (s : State) :
    readReg (writeReg r v s) r' = readReg s r' := by
  cases r with
  | fc =>
    cases r' with
    | fc => exact absurd rfl h
    | fs j => rfl
  | fs i =>
    cases r' with
    | fc => exact writeReg_fs_fc i v s
    | fs j => exact writeReg_fs_getElem_ne (fun hij => h (congrArg Reg.fs hij)) v s

theorem readReg_writeReg_fs_draw (i : Fin 20) {v : Word} (s : State) (h : rsvdField v ≠ 0) :
    readReg (writeReg (.fs i) v s) (.fs i) = Config.reservedDraw s.drawCount ++ v.extractLsb' 0 20 := by
  rw [writeReg_fs_draw i v s h]
  exact Vector.getElem_set_self i.isLt

theorem readReg_writeReg_fs_exact (i : Fin 20) {v : Word} (s : State) (h : rsvdField v = 0) :
    readReg (writeReg (.fs i) v s) (.fs i) = v := by
  rw [writeReg_fs_exact i v s h]
  exact Vector.getElem_set_self i.isLt

/-- `FC` keeps all 32 bits, and a word with zero reserved bits is stored exactly in every register. -/
theorem readReg_writeReg_exact {r : Reg} {v : Word} (s : State) (h : v.toNat < 2 ^ 20 ∨ r = .fc) :
    readReg (writeReg r v s) r = v := by
  cases r with
  | fc => rfl
  | fs i => exact readReg_writeReg_fs_exact i s (rsvdField_eq_zero (h.resolve_right nofun))

/-- The low 20 bits are stored as written, whatever the reserved bits. -/
theorem readReg_writeReg_mod (r : Reg) (v : Word) (s : State) :
    (readReg (writeReg r v s) r).toNat % 2 ^ 20 = v.toNat % 2 ^ 20 := by
  cases r with
  | fc => rfl
  | fs i =>
    by_cases h : rsvdField v = 0
    · rw [readReg_writeReg_fs_exact i s h]
    · rw [readReg_writeReg_fs_draw i s h, drawn_append_toNat]
      omega

/-! ## Raw commands that complete -/

section
variable {s : State} {d : Device} (hd : s.device = some d) (hb : d.base % 4 = 0) (ho : nextOutcome s = .ok)
include hd hb ho

theorem exec_registerWrite_addrOf (r : Reg) (v : Word) :
    exec (.registerWrite (addrOf d.base r) v) s =
      reply (.ok .none) (record ⟨.write, addrOf d.base r, v⟩ (writeReg r v (dropOutcome s))) := by
  rw [exec_registerWrite hd, busWrite_addrOf r v hb ho]
  rfl

theorem exec_registerRead_addrOf (r : Reg) :
    exec (.registerRead (addrOf d.base r)) s =
      reply (.ok (.word (readReg s r))) (record ⟨.read, addrOf d.base r, readReg s r⟩ (dropOutcome s)) := by
  rw [exec_registerRead hd, busRead_addrOf r hb ho]
  rfl

/-- After a completed write the Device, the script left over and the registers are those of the stored word. -/
theorem exec_registerWrite_next (r : Reg) (v : Word) :
    ∃ t, exec (.registerWrite (addrOf d.base r) v) s = .next t ∧ t.device = some d ∧
      nextOutcome t = nextOutcome (dropOutcome s) ∧
      ∀ r', readReg t r' = readReg (writeReg r v (dropOutcome s)) r' := by
  refine ⟨_, exec_registerWrite_addrOf hd hb ho r v, ?_, ?_, readReg_congr rfl rfl⟩
  · simp [hd]
  · simp [nextOutcome]

theorem exec_registerRead_result (r : Reg) :
    ∃ u, exec (.registerRead (addrOf d.base r)) s = .next u ∧ u.result = some (.ok (.word (readReg s r))) :=
  ⟨_, exec_registerRead_addrOf hd hb ho r, rfl⟩

end

/-! ## The statements on raw access -/

/-- Settles O17: the read sees the register the write stored, and every other register as it was. -/
theorem rawReadAfterWrite : Obligations.RawReadAfterWrite := by
  intro s d a v hd hb hok ha hlo hhi
  obtain ⟨ho, hrest⟩ := outcomesOk_succ.mp hok
  obtain ⟨r, rfl⟩ := InWindow.exists_addrOf ⟨ha, hlo, hhi⟩ hb
  obtain ⟨t, hwrite, hdt, hot, hregs⟩ := exec_registerWrite_next hd hb ho r v
  have hot : nextOutcome t = .ok := hot.trans (nextOutcome_eq_ok hrest)
  refine ⟨t, hwrite, ?_, fun b hne hbalign hblo hbhi => ?_⟩
  · obtain ⟨u, hread, hresult⟩ := exec_registerRead_result hdt hb hot r
    rw [hregs r] at hresult
    exact ⟨u, _, hread, hresult, readReg_writeReg_mod r v _,
      fun h => readReg_writeReg_exact _ (h.imp_right addrOf_eq_base)⟩
  · obtain ⟨r', rfl⟩ := InWindow.exists_addrOf ⟨hbalign, hblo, hbhi⟩ hb
    have hne' : r' ≠ r := fun h => hne (congrArg (addrOf d.base) h)
    have hsame : readReg t r' = readReg s r' :=
      (hregs r').trans ((readReg_writeReg_ne hne' v _).trans (readReg_congr rfl rfl r'))
    obtain ⟨u, hread, hresult⟩ := exec_registerRead_result hd hb ho r'
    obtain ⟨u', hread', hresult'⟩ := exec_registerRead_result hdt hb hot r'
    rw [hsame] at hresult'
    exact ⟨u, u', _, hread, hread', hresult, hresult'⟩

/-- Settles O12: `BASE` is the address of `FC`, which stores the word as it is. -/
theorem registerWriteStoresFrameCount : Obligations.RegisterWriteStoresFrameCount := by
  intro s d v hd hb hok
  rw [List.drop_one]
  exact exec_registerWrite_addrOf hd hb (nextOutcome_eq_ok hok) .fc v

/-- Settles O13: a word below `2 ^ 20` has zero reserved bits. -/
theorem registerWriteStoresGainWord : Obligations.RegisterWriteStoresGainWord := by
  intro s d i v hd hb hok hv
  rw [List.drop_one, ← addrOf_fs, exec_registerWrite_addrOf hd hb (nextOutcome_eq_ok hok),
    writeReg_fs_exact i v _ (rsvdField_eq_zero hv)]
  rfl

/-- Settles O14: the stored word is the draw above the low 20 bits as written. -/
theorem registerWriteDrawsReservedBits : Obligations.RegisterWriteDrawsReservedBits := by
  intro s d i v w hd hb hok hv hw
  have hword : w = Config.reservedDraw s.drawCount ++ v.extractLsb' 0 20 :=
    BitVec.eq_of_toNat_eq (hw.trans (drawn_append_toNat _ v).symm)
  rw [List.drop_one, ← addrOf_fs, exec_registerWrite_addrOf hd hb (nextOutcome_eq_ok hok),
    writeReg_fs_draw i v _ (rsvdField_ne_zero hv), hword]
  rfl

/-- Settles O15: a read answers the word of the register that its address selects. -/
theorem registerReadReturnsTheWord : Obligations.RegisterReadReturnsTheWord := by
  intro s d hd hb hok
  have ho := nextOutcome_eq_ok hok
  rw [List.drop_one]
  refine ⟨exec_registerRead_addrOf hd hb ho .fc, fun i => ?_⟩
  rw [← addrOf_fs]
  exact exec_registerRead_addrOf hd hb ho (.fs i)

end Sys2Proof.Machine

/-! ENCODE_GAIN over the exact real numbers: which gains encode, and the exponent and the scale of a positive number
(41_gain_codec.md R121, R130). -/

namespace Sys2Proof.Machine

/-! ## Which gains encode -/

theorem positiveValue_eq_some_iff {g : Gain} {x : RealNumber} :
    positiveValue g = some x ↔ gainValue g = some x ∧ 0 < realValue x := by
  unfold positiveValue
  cases gainValue g with
  | none => simp
  | some y =>
    by_cases hy : realPos y = true
    · have hpos := (realPos_iff y).mp hy
      simp only [hy, if_true, Option.some.injEq]
      exact ⟨fun h => ⟨h, h ▸ hpos⟩, fun h => h.1⟩
    · have hneg := (realPos_iff y).not.mp hy
      simp only [hy, if_false, Option.some.injEq, reduceCtorEq, false_iff]
      rintro ⟨rfl, hpos⟩
      exact hneg hpos

theorem encodeGain_eq_ok_iff {g : Gain} {e : Encoded} :
    encodeGain g = .ok e ↔ ∃ x, gainValue g = some x ∧ 0 < realValue x ∧ e = encodeExact x := by
  simp only [← and_assoc, ← positiveValue_eq_some_iff]
  unfold encodeGain
  cases positiveValue g with
  | none => simp
  | some y => simp [eq_comm]

theorem encodeGain_of_pos {g : Gain} {x : RealNumber} (hx : gainValue g = some x) (hpos : 0 < realValue x) :
    encodeGain g = .ok (encodeExact x) :=
  encodeGain_eq_ok_iff.mpr ⟨x, hx, hpos, rfl⟩

theorem encodeGain_eq_error_gain {g : Gain} {why : ArgInfo} (h : encodeGain g = .error why) : why = .gain := by
  unfold encodeGain at h
  split at h
  · exact (Except.error.inj h).symm
  · cases h

theorem encodeGain_of_nonpos {g : Gain} (h : ∀ x, gainValue g = some x → realValue x ≤ 0) :
    encodeGain g = .error .gain := by
  cases he : encodeGain g with
  | error why => rw [encodeGain_eq_error_gain he]
  | ok e =>
    obtain ⟨x, hx, hpos, -⟩ := encodeGain_eq_ok_iff.mp he
    exact absurd hpos (h x hx).not_gt

/-! ## The exponent -/

theorem comb_pos {x : RealNumber} (hpos : 0 < realValue x) : 0 < realValue x * cNorm := mul_pos hpos cNorm_pos

theorem clog_two_eq_log2 {n : ℕ} (hn : 2 ≤ n) : Nat.clog 2 n = Nat.log2 (n - 1) + 1 := by
  refine eq_of_forall_ge_iff fun k => ?_
  rw [Nat.clog_le_iff_le_pow one_lt_two, Nat.succ_le_iff, Nat.log2_lt (by omega)]
  omega

/-- Above 1 the ceiling of the logarithm is that of the number rounded up, else it is found from the reciprocal. -/
theorem ceilLog2_eq_clog (y : ℝ) : ceilLog2 ⌈y⌉ ⌊1 / y⌋ = Int.clog 2 y := by
  unfold ceilLog2
  split_ifs with h
  · have hlt : 1 < y := by simpa using Int.lt_ceil.mp h
    have hnat : 2 ≤ ⌈y⌉₊ := by rw [← Int.ceil_toNat]; omega
    rw [Int.clog_of_one_le_right 2 hlt.le, clog_two_eq_log2 hnat, Int.ceil_toNat]
  · have hle : y ≤ 1 := by simpa using Int.ceil_le.mp (not_lt.mp h)
    rw [Int.clog_of_right_le_one 2 hle, one_div, Int.floor_toNat, Nat.log2_eq_log_two]

/-- Line 5 of R121: the least integer whose power of two is not below `comb`. -/
theorem eRaw_eq_clog {x : RealNumber} (hpos : 0 < realValue x) : eRaw x = Int.clog 2 (realValue x * cNorm) := by
  rw [eRaw, combCeil_eq, combRecip_eq x hpos, ceilLog2_eq_clog]

theorem eRaw_eq_ceil_logb {x : RealNumber} (hpos : 0 < realValue x) :
    eRaw x = ⌈Real.logb 2 (realValue x * cNorm)⌉ := by
  have h := Real.ceil_logb_natCast (b := 2) (comb_pos hpos).le
  rw [eRaw_eq_clog hpos, ← h, Nat.cast_ofNat]

theorem eRaw_le_iff {x : RealNumber} (hpos : 0 < realValue x) (k : ℤ) :
    eRaw x ≤ k ↔ realValue x * cNorm ≤ 2 ^ k := by
  have h := Int.le_zpow_iff_clog_le (b := 2) one_lt_two (x := k) (comb_pos hpos)
  rw [eRaw_eq_clog hpos, ← h, Nat.cast_ofNat]

theorem lt_eRaw_iff {x : RealNumber} (hpos : 0 < realValue x) (k : ℤ) :
    k < eRaw x ↔ 2 ^ k < realValue x * cNorm := by
  rw [← not_le, ← not_le, eRaw_le_iff hpos]

theorem exponentOf_cast (x : RealNumber) : (exponentOf x : ℤ) = max 0 (min (eRaw x) 14) := by
  simp only [exponentOf, Config.eMax]
  omega

theorem exponentOf_le_of_le {x : RealNumber} (hpos : 0 < realValue x) {k : ℕ} (h : realValue x * cNorm ≤ 2 ^ k) :
    exponentOf x ≤ k := by
  have hraw : eRaw x ≤ k := (eRaw_le_iff hpos k).mpr (by rwa [zpow_natCast])
  have hcast := exponentOf_cast x
  omega

/-- Where the exponent is not clamped at 14, `int_gain` is not below `comb`. -/
theorem comb_le_two_pow_exponentOf {x : RealNumber} (hpos : 0 < realValue x) (h : realValue x * cNorm ≤ 16384) :
    realValue x * cNorm ≤ 2 ^ exponentOf x := by
  have hraw : eRaw x ≤ 14 := (eRaw_le_iff hpos 14).mpr (by norm_num; exact h)
  have hcast := exponentOf_cast x
  have hle : eRaw x ≤ (exponentOf x : ℤ) := by omega
  simpa only [zpow_natCast] using (eRaw_le_iff hpos _).mp hle

/-! ## The flag and the scale -/

theorem encodeExact_outOfRange_iff {x : RealNumber} (hpos : 0 < realValue x) :
    (encodeExact x).outOfRange = true ↔ 16384 < realValue x * cNorm := by
  have h : (encodeExact x).outOfRange = true ↔ 14 < eRaw x := by
    simp only [encodeExact, outOfRange, Config.eMax, Nat.cast_ofNat, decide_eq_true_eq]
  rw [h, lt_eRaw_iff hpos]
  norm_num

theorem encodeExact_outOfRange_eq_false_iff {x : RealNumber} (hpos : 0 < realValue x) :
    (encodeExact x).outOfRange = false ↔ realValue x * cNorm ≤ 16384 := by
  rw [← Bool.not_eq_true, encodeExact_outOfRange_iff hpos, not_lt]

/-- Line 9 of R121. -/
theorem scaleRaw_eq (x : RealNumber) :
    scaleRaw x = ⌊realValue x * cNorm / 2 ^ exponentOf x * 65535⌋ := by
  rw [scaleRaw, intGain, combFloor_eq _ _ _ (Nat.two_pow_pos _), div_mul_eq_mul_div, Config.scaleOne]
  push_cast
  rfl

theorem scaleOf_cast (x : RealNumber) : (scaleOf x : ℤ) = max 0 (min (scaleRaw x) 65535) := by
  simp only [scaleOf, Config.scaleOne]
  omega

/-- In range neither clamp of line 10 acts. -/
theorem scaleOf_eq_floor {x : RealNumber} (hpos : 0 < realValue x) (h : realValue x * cNorm ≤ 16384) :
    (scaleOf x : ℤ) = ⌊realValue x * cNorm / 2 ^ exponentOf x * 65535⌋ := by
  have hlow : 0 ≤ ⌊realValue x * cNorm / 2 ^ exponentOf x * 65535⌋ :=
    Int.floor_nonneg.mpr (by have := (comb_pos hpos).le; positivity)
  have hhigh : ⌊realValue x * cNorm / 2 ^ exponentOf x * 65535⌋ ≤ 65535 := by
    have hone := div_le_one_of_le₀ (comb_le_two_pow_exponentOf hpos h) (by positivity)
    have hreal : realValue x * cNorm / 2 ^ exponentOf x * 65535 ≤ ((65535 : ℤ) : ℝ) := by
      push_cast
      linarith
    exact Int.floor_le_iff.mpr (lt_of_le_of_lt hreal (lt_add_one _))
  rw [scaleOf_cast, scaleRaw_eq]
  omega

/-- Above the range the pair is the largest one (41_gain_codec.md R121 (e)). -/
theorem encodeExact_saturated {x : RealNumber} (hpos : 0 < realValue x) (h : 16384 < realValue x * cNorm) :
    encodeExact x = ⟨14, 65535, true⟩ := by
  have hraw : 14 < eRaw x := (lt_eRaw_iff hpos 14).mpr (by norm_num; exact h)
  have hexp : exponentOf x = 14 := by
    have hcast := exponentOf_cast x
    omega
  have hscaleRaw : 65535 ≤ scaleRaw x := by
    rw [scaleRaw_eq, hexp, Int.le_floor]
    push_cast
    linarith
  have hscale : scaleOf x = 65535 := by
    have hcast := scaleOf_cast x
    omega
  have hflag : outOfRange (eRaw x) = true := (encodeExact_outOfRange_iff hpos).mpr h
  rw [encodeExact, hexp, hscale, hflag]
  rfl

/-- In range the pair is determined by its bracket: the exponent is the least natural whose power of two is not below
`comb`, the scale the whole part of the scaled quotient. -/
theorem encodeExact_eq {x : RealNumber} (hpos : 0 < realValue x) {shift : BitVec 4} {scale : BitVec 16}
    (hshift : shift.toNat ≤ 14) (hhigh : realValue x * cNorm ≤ 2 ^ shift.toNat)
    (hlow : ∀ k, k < shift.toNat → 2 ^ k < realValue x * cNorm)
    (hscale : realValue x * cNorm / 2 ^ shift.toNat * 65535 = scale.toNat) :
    encodeExact x = ⟨shift, scale, false⟩ := by
  have hrange : realValue x * cNorm ≤ 16384 := by
    have hpow : (2 : ℝ) ^ shift.toNat ≤ 2 ^ 14 := pow_le_pow_right₀ one_le_two hshift
    linarith
  have hexp : exponentOf x = shift.toNat := by
    refine le_antisymm (exponentOf_le_of_le hpos hhigh) (not_lt.mp fun hlt => ?_)
    exact absurd (comb_le_two_pow_exponentOf hpos hrange) (hlow _ hlt).not_ge
  have hscaleOf : scaleOf x = scale.toNat := by
    have hfloor := scaleOf_eq_floor hpos hrange
    rw [hexp, hscale, Int.floor_natCast] at hfloor
    exact_mod_cast hfloor
  have hflag : outOfRange (eRaw x) = false := (encodeExact_outOfRange_eq_false_iff hpos).mpr hrange
  rw [encodeExact, hexp, hscaleOf, hflag, BitVec.ofNat_toNat, BitVec.ofNat_toNat, BitVec.setWidth_eq,
    BitVec.setWidth_eq]

/-! ## The statements on the encoder -/

/-- Settles O43: the value decides the outcome, and each line of R121 has its equation over the reals. -/
theorem encodeGainFollowsExactReals : Obligations.EncodeGainFollowsExactReals := by
  refine fun g => ⟨encodeGain_of_nonpos, fun x hx hpos => ⟨_, encodeGain_of_pos hx hpos, ?_⟩⟩
  rintro k rfl
  rw [encodeExact_shift_toNat, encodeExact_scale_toNat, exponentOf_cast, scaleOf_cast, scaleRaw_eq,
    encodeExact_outOfRange_iff hpos, ← eRaw_eq_ceil_logb hpos, lt_eRaw_iff hpos]
  exact ⟨rfl, rfl, by norm_num⟩

/-- Settles O44: 16384 is `2 ^ 14`, and beyond it both clamps act. -/
theorem saturationIsTheLargestPair : Obligations.SaturationIsTheLargestPair := by
  intro g x e hx he
  obtain ⟨y, hy, hpos, rfl⟩ := encodeGain_eq_ok_iff.mp he
  obtain rfl : x = y := Option.some.inj (hx.symm.trans hy)
  have hiff := encodeExact_outOfRange_iff hpos
  refine ⟨hiff, fun hout => ?_⟩
  rw [encodeExact_saturated hpos (hiff.mp hout)]
  exact ⟨rfl, rfl⟩

/-- Settles O45: above exponent 0 `comb` exceeds half of `int_gain`, so the scale is at least 32767. -/
theorem encoderProducesNormalisedPairs : Obligations.EncoderProducesNormalisedPairs := by
  intro g e he
  obtain ⟨x, -, -, rfl⟩ := encodeGain_eq_ok_iff.mp he
  rw [Normalised, encodeExact_shift_toNat, encodeExact_scale_toNat]
  have hle : exponentOf x ≤ 14 := exponentOf_le x
  by_cases h : exponentOf x = 0
  · exact .inl h
  · exact .inr ⟨Nat.pos_of_ne_zero h, hle, le_scaleOf h⟩

/-! ## Binary gains -/

theorem cNorm_irrational : Irrational cNorm := by
  rw [cNorm_eq, show (379 / 200 : ℝ) = ((379 / 200 : ℚ) : ℝ) by norm_num]
  exact sqrt_five_irrational.ratCast_mul (by norm_num)

theorem binaryValue_root {mbits ebits bias bits : ℕ} {x : Surd} (h : binaryValue mbits ebits bias bits = some x) :
    x.root = 0 := by
  unfold binaryValue at h
  dsimp only at h
  split at h
  · cases h
  · rw [← Option.some.inj h]

theorem gainValue_binary {g : Gain} {x : RealNumber} (hg : ∀ y, g ≠ .real y) (h : gainValue g = some x) :
    ∃ y : Surd, x = .surd y ∧ y.root = 0 := by
  cases g with
  | real y => exact absurd rfl (hg y)
  | binary32 bits =>
    obtain ⟨y, hy, rfl⟩ := Option.map_eq_some_iff.mp h
    exact ⟨y, rfl, binaryValue_root hy⟩
  | binary64 bits =>
    obtain ⟨y, hy, rfl⟩ := Option.map_eq_some_iff.mp h
    exact ⟨y, rfl, binaryValue_root hy⟩

/-- A rational number other than 0 times `C_NORM`. -/
theorem comb_irrational {g : Gain} {x : RealNumber} (hg : ∀ y, g ≠ .real y) (hx : gainValue g = some x)
    (hpos : 0 < realValue x) : Irrational (realValue x * cNorm) := by
  obtain ⟨y, rfl, hroot⟩ := gainValue_binary hg hx
  have hrat : realValue (.surd y) = ((y.rat / y.den : ℚ) : ℝ) := by
    rw [realValue, surdReal, hroot]
    push_cast
    ring
  rw [hrat] at hpos ⊢
  have hne : (y.rat / y.den : ℚ) ≠ 0 := by
    rintro h
    rw [h] at hpos
    norm_num at hpos
  exact cNorm_irrational.ratCast_mul hne

/-- Settles O60: a power of two is rational, and so is `n * 2 ^ e / 65535`. -/
theorem binaryGainsHaveNoTies : Obligations.BinaryGainsHaveNoTies := by
  intro g x hg hx hpos
  have hirr := comb_irrational hg hx hpos
  refine ⟨hirr, fun k => ?_, fun e n => ?_⟩
  · have h := hirr.ne_rat (2 ^ k)
    push_cast at h
    exact h
  · have h := ((hirr.div_natCast (m := 2 ^ e) (by positivity)).mul_natCast (m := 65535) (by norm_num)).ne_int n
    exact_mod_cast h

/-- Settles O46: the scale is 65535 only where `comb` is a power of two, which a binary gain's is not. -/
theorem binaryGainsInRangeScaleBound : Obligations.BinaryGainsInRangeScaleBound := by
  intro g e hg he hout
  obtain ⟨x, hx, hpos, rfl⟩ := encodeGain_eq_ok_iff.mp he
  have hrange := (encodeExact_outOfRange_eq_false_iff hpos).mp hout
  have hne : realValue x * cNorm ≠ 2 ^ exponentOf x := by
    exact_mod_cast (comb_irrational hg hx hpos).ne_nat (2 ^ exponentOf x)
  have hlt : realValue x * cNorm / 2 ^ exponentOf x < 1 :=
    (div_lt_one (by positivity)).mpr (lt_of_le_of_ne (comb_le_two_pow_exponentOf hpos hrange) hne)
  have hscale : (scaleOf x : ℤ) < 65535 := by
    rw [scaleOf_eq_floor hpos hrange, Int.floor_lt]
    push_cast
    linarith
  rw [encodeExact_scale_toNat]
  omega

end Sys2Proof.Machine

/-! DECODE_GAIN followed by ENCODE_GAIN and the reverse, for exact gains (41_gain_codec.md R122, R132, R133). -/

namespace Sys2Proof.Machine

/-! ## The decoded gain -/

theorem surdReal_decodeExact (shift : BitVec 4) (scale : BitVec 16) :
    surdReal (decodeExact shift scale) = decodedReal shift scale := by
  have h5 : Real.sqrt 5 * Real.sqrt 5 = 5 := Real.mul_self_sqrt (by norm_num)
  have hs := sqrt_five_pos.ne'
  simp only [surdReal, decodeExact, Surd.den, decodedReal, cNorm_eq, Config.kNormDen, Config.kNormNum,
    Config.scaleOne]
  push_cast
  field_simp
  linear_combination 9935106000 * (scale.toNat : ℝ) * 2 ^ shift.toNat * h5

/-- What the encoder makes of a decoded gain: the factor `C_NORM` cancels. -/
theorem comb_decodeExact (shift : BitVec 4) (scale : BitVec 16) :
    realValue (.surd (decodeExact shift scale)) * cNorm = scale.toNat * 2 ^ shift.toNat / 65535 := by
  have hc := cNorm_pos.ne'
  rw [realValue, surdReal_decodeExact, decodedReal]
  field_simp

theorem realValue_decodeExact_pos_iff (shift : BitVec 4) (scale : BitVec 16) :
    0 < realValue (.surd (decodeExact shift scale)) ↔ 1 ≤ scale.toNat := by
  rw [← mul_pos_iff_of_pos_right cNorm_pos, comb_decodeExact, div_pos_iff_of_pos_right (by norm_num),
    mul_pos_iff_of_pos_right (by positivity), Nat.cast_pos, Nat.succ_le_iff]

/-- The decoded gain depends on the product `scale * 2^shift` only. -/
theorem decodeExact_congr {shift shift' : BitVec 4} {scale scale' : BitVec 16}
    (h : scale.toNat * 2 ^ shift.toNat = scale'.toNat * 2 ^ shift'.toNat) :
    decodeExact shift scale = decodeExact shift' scale' := by
  rw [decodeExact, decodeExact, h]

theorem encodeGain_decodeGainIn_real {shift : BitVec 4} {scale : BitVec 16} (h : 1 ≤ scale.toNat) :
    encodeGain (decodeGainIn .real shift scale) = .ok (encodeExact (.surd (decodeExact shift scale))) :=
  encodeGain_of_pos rfl ((realValue_decodeExact_pos_iff shift scale).mpr h)

/-! ## Decode then encode -/

/-- A gain that some canonical pair decodes to encodes to that pair. -/
theorem encodeExact_decodeExact {shift shift' : BitVec 4} {scale scale' : BitVec 16}
    (hcanonical : Canonical shift' scale')
    (h : scale.toNat * 2 ^ shift.toNat = scale'.toNat * 2 ^ shift'.toNat) :
    encodeExact (.surd (decodeExact shift scale)) = ⟨shift', scale', false⟩ := by
  have hscale := scale'.isLt
  rw [decodeExact_congr h]
  have hpos := (realValue_decodeExact_pos_iff shift' scale').mpr (by omega)
  refine encodeExact_eq hpos (by omega) ?_ (fun k hk => ?_) ?_
  all_goals rw [comb_decodeExact]
  · have hle : (scale'.toNat : ℝ) ≤ 65535 := by exact_mod_cast Nat.le_of_lt_succ hscale
    rw [div_le_iff₀ (by norm_num), mul_comm]
    gcongr
  · have hhalf : (32768 : ℝ) ≤ scale'.toNat := by exact_mod_cast (by omega : 32768 ≤ scale'.toNat)
    have hpow : (2 : ℝ) * 2 ^ k ≤ 2 ^ shift'.toNat := by
      rw [← pow_succ']
      exact pow_le_pow_right₀ one_le_two hk
    have hk0 : (0 : ℝ) < 2 ^ k := by positivity
    rw [lt_div_iff₀ (by norm_num)]
    nlinarith
  · field_simp

/-- In range the scale is the exact quotient, so the pair decodes to the gain that was encoded. -/
theorem decodeExact_encodeExact {shift : BitVec 4} {scale : BitVec 16} (hpos : 1 ≤ scale.toNat)
    (hrange : scale.toNat * 2 ^ shift.toNat ≤ 65535 * 16384) {e : Encoded}
    (he : e = encodeExact (.surd (decodeExact shift scale))) :
    e.outOfRange = false ∧ decodeExact e.shift e.scale = decodeExact shift scale := by
  subst he
  have hx := (realValue_decodeExact_pos_iff shift scale).mpr hpos
  have hcomb := comb_decodeExact shift scale
  have hle : realValue (.surd (decodeExact shift scale)) * cNorm ≤ 16384 := by
    rw [hcomb, div_le_iff₀ (by norm_num), mul_comm (16384 : ℝ)]
    exact_mod_cast hrange
  refine ⟨(encodeExact_outOfRange_eq_false_iff hx).mpr hle, decodeExact_congr ?_⟩
  have hexp : exponentOf (.surd (decodeExact shift scale)) ≤ shift.toNat := by
    refine exponentOf_le_of_le hx ?_
    have hscale : (scale.toNat : ℝ) ≤ 65535 := by exact_mod_cast Nat.le_of_lt_succ scale.isLt
    rw [hcomb, div_le_iff₀ (by norm_num), mul_comm]
    gcongr
  have hfloor := scaleOf_eq_floor hx hle
  rw [encodeExact_scale_toNat, encodeExact_shift_toNat]
  generalize exponentOf (.surd (decodeExact shift scale)) = k at hexp hfloor ⊢
  obtain ⟨j, hj⟩ := Nat.exists_eq_add_of_le hexp
  have hquot : (scale.toNat : ℝ) * 2 ^ shift.toNat / 65535 / 2 ^ k * 65535 = (scale.toNat * 2 ^ j : ℕ) := by
    rw [hj, pow_add]
    push_cast
    field_simp
  rw [hcomb, hquot, Int.floor_natCast, Nat.cast_inj] at hfloor
  rw [hfloor, hj, pow_add]
  ring

/-- Settles O47: a canonical pair is the one pair its gain encodes to. -/
theorem decodeThenEncodeIsIdentity : Obligations.DecodeThenEncodeIsIdentity := by
  intro shift scale hcanonical
  rw [encodeGain_decodeGainIn_real (by omega), encodeExact_decodeExact hcanonical rfl]

/-- Settles O58, clause by clause: the gain in range, the scale 32767, the gain above the range, the gain 0. -/
theorem decodeThenEncodeOnEveryPair : Obligations.DecodeThenEncodeOnEveryPair := by
  refine fun shift scale => ⟨fun hpos hrange => ?_, ?_, ?_, ?_⟩
  · obtain ⟨hout, hgain⟩ := decodeExact_encodeExact hpos hrange rfl
    exact ⟨_, encodeGain_decodeGainIn_real hpos, hout, congrArg (fl .real) hgain⟩
  · rintro below hbelow rfl
    have hcanonical : Canonical below 65534 := by
      have hlt := shift.isLt
      simp only [Canonical, BitVec.reduceToNat]
      omega
    have hproduct : (32767#16).toNat * 2 ^ shift.toNat = (65534#16).toNat * 2 ^ below.toNat := by
      simp only [← hbelow, pow_succ, BitVec.reduceToNat]
      ring
    rw [encodeGain_decodeGainIn_real (by decide)]
    exact congrArg _ (encodeExact_decodeExact hcanonical hproduct)
  · rintro rfl hscale
    have hpos : 1 ≤ scale.toNat := by omega
    have habove : 16384 < realValue (.surd (decodeExact 15 scale)) * cNorm := by
      have hcast : (32768 : ℝ) ≤ scale.toNat := by exact_mod_cast hscale
      rw [comb_decodeExact, lt_div_iff₀ (by norm_num)]
      simp only [BitVec.reduceToNat]
      linarith
    rw [encodeGain_decodeGainIn_real hpos,
      encodeExact_saturated ((realValue_decodeExact_pos_iff 15 scale).mpr hpos) habove]
  · rintro rfl
    refine encodeGain_of_nonpos fun x hx => not_lt.mp fun hpos => ?_
    obtain rfl := Option.some.inj hx
    exact absurd ((realValue_decodeExact_pos_iff shift 0).mp hpos) (by decide)

/-! ## Encode then decode -/

/-- Settles O48: the floor of line 9 lies below its argument by less than one. -/
theorem encodeThenDecodeIsWithinOneUnit : Obligations.EncodeThenDecodeIsWithinOneUnit := by
  intro x e he hrange
  obtain ⟨y, hy, hpos, rfl⟩ := encodeGain_eq_ok_iff.mp he
  obtain rfl : x = y := Option.some.inj hy
  have hc := cNorm_pos
  have hfloor := scaleOf_eq_floor hpos hrange
  have hscale : (scaleOf x : ℝ) = (⌊realValue x * cNorm / 2 ^ exponentOf x * 65535⌋ : ℤ) := by
    rw [← hfloor, Int.cast_natCast]
  have hunit : realValue x =
      realValue x * cNorm / 2 ^ exponentOf x * 65535 * 2 ^ exponentOf x / (65535 * cNorm) := by
    field_simp
  rw [decodedReal, encodeExact_shift_toNat, encodeExact_scale_toNat, hscale]
  generalize realValue x * cNorm / 2 ^ exponentOf x * 65535 = quotient at hunit ⊢
  rw [hunit, ← sub_div, ← sub_mul]
  constructor
  · gcongr
    exact Int.floor_le quotient
  · have hlt : quotient - ⌊quotient⌋ < 1 := by linarith [Int.lt_floor_add_one quotient]
    rw [div_lt_div_iff_of_pos_right (by positivity)]
    exact mul_lt_of_lt_one_left (by positivity) hlt

end Sys2Proof.Machine

/-! DECODE_GAIN into a binary format: the result is the value of the format nearest to the exact one, for every width of
fraction and exponent (41_gain_codec.md R129). A number is measured in units of the smallest subnormal, `2 ^ -unit`; in
the binade `h` above the subnormals the values of the format are the multiples of `2 ^ h`. -/

namespace Sys2Proof.Machine

/-! ## Nearest integers -/

theorem abs_sub_lt_of_ne {u : ℝ} {M K : ℤ} (hu : |(M : ℝ) - u| < 1 / 2) (hne : K ≠ M) :
    |(M : ℝ) - u| < |(K : ℝ) - u| := by
  have hone : (1 : ℝ) ≤ |(K : ℝ) - M| := by exact_mod_cast Int.one_le_abs (sub_ne_zero.mpr hne)
  have htri := abs_sub_le (K : ℝ) u M
  rw [abs_sub_comm u] at htri
  linarith

/-- The integer nearest to `u` is also nearer than whatever lies below an integer that `u` is not below. -/
theorem abs_sub_lt_of_lt_or_int {u w : ℝ} {M B : ℤ} (hu : |(M : ℝ) - u| < 1 / 2) (hB : (B : ℝ) ≤ u)
    (hw : w < B ∨ ∃ K : ℤ, w = K) (hne : w ≠ M) : |(M : ℝ) - u| < |w - u| := by
  obtain hw | ⟨K, rfl⟩ := hw
  · have hle : |(M : ℝ) - u| ≤ |(B : ℝ) - u| := by
      by_cases h : B = M
      · rw [h]
      · exact (abs_sub_lt_of_ne hu h).le
    rw [abs_of_nonpos (by linarith : (B : ℝ) - u ≤ 0)] at hle
    rw [abs_of_neg (by linarith : w - u < 0)]
    linarith
  · exact abs_sub_lt_of_ne hu (by exact_mod_cast hne)

/-! ## What `nearestBits` computes -/

section
variable (x : Surd) (unit : ℕ)

theorem den_pos : 0 < x.den := Nat.succ_pos x.denPred

/-- The whole number of units. -/
theorem floorSurd_units :
    (floorSurd (x.rat * 2 ^ unit) (x.root * 2 ^ unit) x.den).toNat = ⌊surdReal x * 2 ^ unit⌋₊ := by
  rw [floorSurd_eq _ _ _ (den_pos x), Int.floor_toNat, surdReal]
  congr 1
  push_cast
  ring

/-- The test for rounding up: the part below the last place is above one half. -/
theorem surdPos_overHalf_iff (m h : ℕ) :
    surdPos (x.rat * 2 ^ (unit + 1) - ((2 * m + 1) * 2 ^ h * x.den : ℕ)) (x.root * 2 ^ (unit + 1)) = true ↔
      (m : ℝ) + 1 / 2 < surdReal x * 2 ^ unit / 2 ^ h := by
  have hd : (0 : ℝ) < x.den := by exact_mod_cast den_pos x
  have hdouble : ((x.rat * 2 ^ (unit + 1) - ((2 * m + 1) * 2 ^ h * x.den : ℕ) : ℤ) : ℝ) +
      ((x.root * 2 ^ (unit + 1) : ℤ) : ℝ) * Real.sqrt 5 =
      2 * (((x.rat : ℝ) + x.root * Real.sqrt 5) * 2 ^ unit - ((m : ℝ) + 1 / 2) * 2 ^ h * x.den) := by
    push_cast
    ring
  rw [surdPos_iff, hdouble, mul_pos_iff_of_pos_left two_pos, sub_pos, surdReal, lt_div_iff₀ (by positivity),
    div_mul_eq_mul_div, lt_div_iff₀ hd]

variable {x}

/-- With a `sqrt 5` part there is no tie. -/
theorem units_ne_half (hroot : x.root ≠ 0) (m h : ℕ) : surdReal x * 2 ^ unit / 2 ^ h ≠ m + 1 / 2 := by
  have hirr : Irrational (surdReal x) :=
    ((sqrt_five_irrational.intCast_mul hroot).intCast_add x.rat).div_natCast (den_pos x).ne'
  have hirr := (hirr.mul_natCast (m := 2 ^ unit) (by positivity)).div_natCast (m := 2 ^ h) (by positivity)
  have hne := hirr.ne_rat (m + 1 / 2)
  push_cast at hne
  exact hne

/-- For a number that is not subnormal: its binade, and the integer significand nearest to it. -/
theorem nearestBits_eq (hroot : x.root ≠ 0) {mbits : ℕ} (infBits : ℕ) (hmin : 2 ^ mbits ≤ surdReal x * 2 ^ unit) :
    ∃ h M : ℕ, 2 ^ (mbits + h) ≤ surdReal x * 2 ^ unit ∧ surdReal x * 2 ^ unit < 2 ^ (mbits + h + 1) ∧
      |(M : ℝ) - surdReal x * 2 ^ unit / 2 ^ h| < 1 / 2 ∧
      nearestBits mbits unit infBits x.rat x.root x.den = min (h * 2 ^ mbits + M) infBits := by
  have hhalf := units_ne_half unit hroot
  have hover := surdPos_overHalf_iff x unit
  have hunits := floorSurd_units x unit
  generalize surdReal x * 2 ^ unit = t at *
  have ht : 0 ≤ t := le_trans (by positivity) hmin
  have hn : 2 ^ mbits ≤ ⌊t⌋₊ := Nat.le_floor (by exact_mod_cast hmin)
  have hn0 : ⌊t⌋₊ ≠ 0 := (lt_of_lt_of_le (Nat.two_pow_pos mbits) hn).ne'
  obtain ⟨h, hh⟩ := Nat.exists_eq_add_of_le ((Nat.le_log2 hn0).mpr hn)
  have hlow : 2 ^ (mbits + h) ≤ ⌊t⌋₊ := hh ▸ Nat.log2_self_le hn0
  have hhigh : ⌊t⌋₊ < 2 ^ (mbits + h + 1) := hh ▸ Nat.lt_log2_self
  have hm : ⌊t / 2 ^ h⌋₊ = ⌊t⌋₊ / 2 ^ h := by exact_mod_cast Nat.floor_div_natCast t (2 ^ h)
  have hmle : (⌊t / 2 ^ h⌋₊ : ℝ) ≤ t / 2 ^ h := Nat.floor_le (by positivity)
  have hmlt : t / 2 ^ h < ⌊t / 2 ^ h⌋₊ + 1 := Nat.lt_floor_add_one _
  generalize ⌊t / 2 ^ h⌋₊ = m at hm hmle hmlt
  have hbits : nearestBits mbits unit infBits x.rat x.root x.den =
      min (h * 2 ^ mbits + m + if (m : ℝ) + 1 / 2 < t / 2 ^ h then 1 else 0) infBits := by
    simp only [nearestBits, hunits, hh, Nat.add_sub_cancel_left, ← hm, hover, hroot, and_false, if_false]
  refine ⟨h, m + if (m : ℝ) + 1 / 2 < t / 2 ^ h then 1 else 0, ?_, ?_, ?_, by rw [hbits, Nat.add_assoc]⟩
  · exact_mod_cast (Nat.le_floor_iff ht).mp hlow
  · exact_mod_cast (Nat.floor_lt ht).mp hhigh
  · rw [abs_lt]
    split
    · push_cast
      constructor <;> linarith
    · have hlt : t / 2 ^ h < m + 1 / 2 := lt_of_le_of_ne (not_lt.mp ‹_›) (hhalf m h)
      push_cast
      constructor <;> linarith

end

/-! ## The values of a binary format -/

section
variable {mbits ebits unit : ℕ}

/-- A normal number: exponent field `ex`, fraction `frac`. -/
theorem binaryValue_normal {ex frac : ℕ} (hex : 1 ≤ ex) (hfinite : ex < 2 ^ ebits - 1) (hfrac : frac < 2 ^ mbits) :
    ∃ y, binaryValue mbits ebits (unit + 1) (ex * 2 ^ mbits + frac) = some y ∧
      surdReal y * 2 ^ unit = ((2 ^ mbits + frac) * 2 ^ (ex - 1) : ℕ) := by
  have hpos : 0 < 2 ^ mbits := Nat.two_pow_pos mbits
  have hexp : (ex * 2 ^ mbits + frac) / 2 ^ mbits = ex := by
    rw [Nat.add_comm, Nat.add_mul_div_right _ _ hpos, Nat.div_eq_of_lt hfrac, Nat.zero_add]
  have hexp' : (ex * 2 ^ mbits + frac) / 2 ^ mbits % 2 ^ ebits = ex := by
    rw [hexp, Nat.mod_eq_of_lt (by omega)]
  have hmod : (ex * 2 ^ mbits + frac) % 2 ^ mbits = frac := by
    rw [Nat.mul_add_mod', Nat.mod_eq_of_lt hfrac]
  have hsign : (ex * 2 ^ mbits + frac) / 2 ^ (mbits + ebits) = 0 := by
    rw [pow_add, ← Nat.div_div_eq_div_mul, hexp, Nat.div_eq_of_lt (by omega)]
  obtain ⟨y, hy, hvalue⟩ := binaryValue_some (bias := unit + 1) (hexp'.trans_ne hfinite.ne)
  refine ⟨y, hy, ?_⟩
  have hzpow : (2 : ℝ) ^ ((ex : ℤ) - (unit + 1 : ℕ)) * 2 ^ unit = 2 ^ (ex - 1) := by
    rw [← zpow_natCast, ← zpow_natCast, ← zpow_add₀ two_ne_zero]
    congr 1
    omega
  rw [hvalue, hexp', hmod, hsign, if_neg (by omega), max_eq_left hex, mul_assoc, hzpow]
  push_cast
  ring

/-- The bits that `nearestBits` builds: a significand that carries into the exponent denotes its value all the same. -/
theorem binaryValue_of_significand {h M : ℕ} (hlow : 2 ^ mbits ≤ M) (hhigh : M ≤ 2 ^ (mbits + 1))
    (hfinite : h + 2 < 2 ^ ebits - 1) :
    ∃ y, binaryValue mbits ebits (unit + 1) (h * 2 ^ mbits + M) = some y ∧
      surdReal y * 2 ^ unit = (M : ℝ) * 2 ^ h := by
  obtain hlt | rfl := hhigh.lt_or_eq
  · obtain ⟨frac, rfl⟩ := Nat.exists_eq_add_of_le hlow
    have hfrac : frac < 2 ^ mbits := by rw [pow_succ] at hlt; omega
    obtain ⟨y, hy, hvalue⟩ := binaryValue_normal (ebits := ebits) (unit := unit) (ex := h + 1) (by omega)
      (by omega) hfrac
    refine ⟨y, by rw [← hy]; congr 1; ring, ?_⟩
    rw [hvalue, Nat.add_sub_cancel]
    push_cast
    ring
  · obtain ⟨y, hy, hvalue⟩ := binaryValue_normal (unit := unit) (mbits := mbits) (ex := h + 2) (frac := 0) (by omega)
      (by omega) (by positivity)
    refine ⟨y, by rw [← hy]; congr 1; ring, ?_⟩
    rw [hvalue, show h + 2 - 1 = h + 1 by omega]
    push_cast
    ring

/-- In a binade and above it every value of the format is a multiple of the binade's last place. -/
theorem binaryValue_lt_or_multiple {bits : ℕ} {z : Surd} (hz : binaryValue mbits ebits (unit + 1) bits = some z)
    (h : ℕ) : surdReal z * 2 ^ unit < 2 ^ (mbits + h) ∨ ∃ K : ℤ, surdReal z * 2 ^ unit = K * 2 ^ h := by
  have hfinite : bits / 2 ^ mbits % 2 ^ ebits ≠ 2 ^ ebits - 1 := by
    intro hinf
    rw [binaryValue_none hinf] at hz
    cases hz
  obtain ⟨z', hz', hvalue⟩ := binaryValue_some (bias := unit + 1) hfinite
  obtain rfl : z = z' := Option.some.inj (hz.symm.trans hz')
  have hsignificand : bits % 2 ^ mbits + (if bits / 2 ^ mbits % 2 ^ ebits = 0 then 0 else 2 ^ mbits) <
      2 ^ (mbits + 1) := by
    have hfrac : bits % 2 ^ mbits < 2 ^ mbits := Nat.mod_lt _ (Nat.two_pow_pos mbits)
    rw [pow_succ]
    split <;> omega
  obtain ⟨j, hj⟩ := Nat.exists_eq_add_of_le' (le_max_right (bits / 2 ^ mbits % 2 ^ ebits) 1)
  have hzpow : (2 : ℝ) ^ (((j + 1 : ℕ) : ℤ) - (unit + 1 : ℕ)) * 2 ^ unit = 2 ^ j := by
    rw [← zpow_natCast, ← zpow_natCast, ← zpow_add₀ two_ne_zero]
    congr 1
    omega
  rw [hvalue, hj, mul_assoc, hzpow]
  generalize bits % 2 ^ mbits + (if bits / 2 ^ mbits % 2 ^ ebits = 0 then 0 else 2 ^ mbits) = k at hsignificand ⊢
  obtain hlt | hle := Nat.lt_or_ge j h
  · left
    calc (-1 : ℝ) ^ (bits / 2 ^ (mbits + ebits)) * k * 2 ^ j
        ≤ k * 2 ^ j := by
          gcongr
          obtain hsign | hsign := neg_one_pow_eq_or ℝ (bits / 2 ^ (mbits + ebits)) <;> rw [hsign] <;>
            linarith [Nat.cast_nonneg (α := ℝ) k]
      _ < 2 ^ (mbits + 1) * 2 ^ j := by gcongr; exact_mod_cast hsignificand
      _ = 2 ^ (mbits + (j + 1)) := by ring
      _ ≤ 2 ^ (mbits + h) := pow_le_pow_right₀ one_le_two (by omega)
  · right
    refine ⟨(-1) ^ (bits / 2 ^ (mbits + ebits)) * k * 2 ^ (j - h), ?_⟩
    push_cast
    rw [mul_assoc _ ((2 : ℝ) ^ (j - h)), ← pow_add, Nat.sub_add_cancel hle]

/-! ## Rounding -/

/-- The bits denote the value of the format nearest to `r`, every other value is farther away, and the relative error
is at most half a unit in the last place. -/
def RoundsTo (mbits ebits unit : ℕ) (r : ℝ) (bits : ℕ) : Prop :=
  ∃ y, binaryValue mbits ebits (unit + 1) bits = some y ∧ |surdReal y - r| ≤ r / 2 ^ (mbits + 1) ∧
    ∀ bits' z, binaryValue mbits ebits (unit + 1) bits' = some z → surdReal z ≠ surdReal y →
      |surdReal y - r| < |surdReal z - r|

theorem roundBits_of_pos {x : Surd} (hx : 0 < surdReal x) :
    roundBits mbits ebits unit x = nearestBits mbits unit ((2 ^ ebits - 1) * 2 ^ mbits) x.rat x.root x.den := by
  have hd : (0 : ℝ) < x.den := by exact_mod_cast Nat.succ_pos x.denPred
  have hneg : ¬ surdPos (-x.rat) (-x.root) = true := by
    rw [surdReal, div_pos_iff_of_pos_right hd] at hx
    rw [surdPos_iff]
    push_cast
    linarith
  simp only [roundBits, if_neg hneg]

theorem nearestBits_zero {infBits d : ℕ} (hd : 0 < d) : nearestBits mbits unit infBits 0 0 d = 0 := by
  have hroot : floorRoot 0 = 0 := by rw [floorRoot_eq, Int.cast_zero, zero_mul, Int.floor_zero]
  have hdown : surdPos (-d) 0 = false := by
    rw [← Bool.not_eq_true, surdPos_iff]
    simp
  simp [nearestBits, floorSurd, hroot, hdown, hd.ne']

theorem roundBits_zero (denPred : ℕ) : roundBits mbits ebits unit ⟨0, 0, denPred⟩ = 0 := by
  have hsign : ¬ surdPos (-0) (-0) = true := by decide
  simp only [roundBits, if_neg hsign]
  exact nearestBits_zero (Nat.succ_pos denPred)

theorem roundBits_lt (x : Surd) : roundBits mbits ebits unit x < 2 ^ (mbits + ebits + 1) := by
  have hinf : (2 ^ ebits - 1) * 2 ^ mbits < 2 ^ (mbits + ebits) := by
    rw [Nat.add_comm, pow_add]
    gcongr
    exact Nat.sub_lt (Nat.two_pow_pos ebits) one_pos
  have hle : ∀ p q d, nearestBits mbits unit ((2 ^ ebits - 1) * 2 ^ mbits) p q d < 2 ^ (mbits + ebits) :=
    fun p q d => lt_of_le_of_lt (min_le_right _ _) hinf
  have hneg := hle (-x.rat) (-x.root) x.den
  have hpos := hle x.rat x.root x.den
  rw [pow_succ]
  unfold roundBits
  dsimp only
  split <;> omega

/-- Rounding an irrational number of the normal range. Distances are compared in units of its last place, `2 ^ h`. -/
theorem roundsTo_roundBits {x : Surd} (hroot : x.root ≠ 0) {H : ℕ} (hmin : 2 ^ mbits ≤ surdReal x * 2 ^ unit)
    (hmax : surdReal x * 2 ^ unit < 2 ^ (mbits + H)) (hH : H + 1 < 2 ^ ebits - 1) :
    RoundsTo mbits ebits unit (surdReal x) (roundBits mbits ebits unit x) := by
  have hpos : 0 < surdReal x :=
    pos_of_mul_pos_left (lt_of_lt_of_le (by positivity) hmin) (by positivity : (0 : ℝ) ≤ 2 ^ unit)
  obtain ⟨h, M, hlow, hhigh, hnear, hbits⟩ := nearestBits_eq unit hroot ((2 ^ ebits - 1) * 2 ^ mbits) hmin
  have hlow' : (2 : ℝ) ^ mbits ≤ surdReal x * 2 ^ unit / 2 ^ h := by rwa [le_div_iff₀ (by positivity), ← pow_add]
  have hhigh' : surdReal x * 2 ^ unit / 2 ^ h < 2 ^ (mbits + 1) := by
    rwa [div_lt_iff₀ (by positivity), ← pow_add, Nat.add_right_comm]
  have hh : h < H := by
    have hlt := (pow_lt_pow_iff_right₀ (one_lt_two : (1 : ℝ) < 2)).mp (lt_of_le_of_lt hlow hmax)
    omega
  obtain ⟨hneg, hpos'⟩ := abs_lt.mp hnear
  have hMlow : 2 ^ mbits ≤ M := by
    have hlt : ((2 ^ mbits : ℕ) : ℝ) < (M + 1 : ℕ) := by push_cast; linarith
    exact Nat.le_of_lt_succ (Nat.cast_lt.mp hlt)
  have hMhigh : M ≤ 2 ^ (mbits + 1) := by
    have hlt : (M : ℝ) < (2 ^ (mbits + 1) + 1 : ℕ) := by push_cast; linarith
    exact Nat.le_of_lt_succ (Nat.cast_lt.mp hlt)
  have hfits : h * 2 ^ mbits + M ≤ (2 ^ ebits - 1) * 2 ^ mbits := by
    calc h * 2 ^ mbits + M ≤ (h + 2) * 2 ^ mbits := by rw [pow_succ] at hMhigh; linarith
      _ ≤ (2 ^ ebits - 1) * 2 ^ mbits := Nat.mul_le_mul_right _ (by omega)
  obtain ⟨y, hy, hvalue⟩ := binaryValue_of_significand (unit := unit) hMlow hMhigh
    (by omega : h + 2 < 2 ^ ebits - 1)
  have hscale : ∀ z, |surdReal z - surdReal x| =
      |surdReal z * 2 ^ unit / 2 ^ h - surdReal x * 2 ^ unit / 2 ^ h| * (2 ^ h / 2 ^ unit) := by
    intro z
    rw [← abs_of_pos (by positivity : (0 : ℝ) < 2 ^ h / 2 ^ unit), ← abs_mul]
    congr 1
    field_simp
  have hy' : surdReal y * 2 ^ unit / 2 ^ h = (M : ℤ) := by
    rw [hvalue, mul_div_cancel_right₀ _ (by positivity), Int.cast_natCast]
  refine ⟨y, ?_, ?_, fun bits' z hz hne => ?_⟩
  · rw [roundBits_of_pos hpos, hbits, min_eq_left hfits, hy]
  · calc |surdReal y - surdReal x|
        ≤ 1 / 2 * (2 ^ h / 2 ^ unit) := by
          rw [hscale, hy', Int.cast_natCast]
          gcongr
      _ = 2 ^ (mbits + h) / 2 ^ unit / 2 ^ (mbits + 1) := by
          rw [pow_add, pow_succ]
          field_simp
      _ ≤ surdReal x / 2 ^ (mbits + 1) := by
          gcongr
          rwa [div_le_iff₀ (by positivity)]
  · rw [hscale, hscale, hy']
    refine mul_lt_mul_of_pos_right ?_ (by positivity)
    refine abs_sub_lt_of_lt_or_int (B := 2 ^ mbits) (by rwa [Int.cast_natCast]) (by exact_mod_cast hlow') ?_ ?_
    · obtain hlt | ⟨K, hK⟩ := binaryValue_lt_or_multiple hz h
      · left
        rw [div_lt_iff₀ (by positivity)]
        push_cast
        rwa [← pow_add]
      · exact .inr ⟨K, by rw [hK, mul_div_cancel_right₀ _ (by positivity)]⟩
    · rw [← hy']
      intro heq
      field_simp at heq
      exact hne heq

/-- 0 decodes to positive zero, the value of the format that it is. -/
theorem roundsTo_zero (hebits : 2 ≤ ebits) : RoundsTo mbits ebits unit 0 0 := by
  have hpow : 2 ^ 2 ≤ 2 ^ ebits := Nat.pow_le_pow_right two_pos hebits
  have hfinite : 0 / 2 ^ mbits % 2 ^ ebits ≠ 2 ^ ebits - 1 := by
    rw [Nat.zero_div, Nat.zero_mod]
    omega
  obtain ⟨y, hy, hvalue⟩ := binaryValue_some (bias := unit + 1) hfinite
  have hzero : surdReal y = 0 := by simpa using hvalue
  refine ⟨y, hy, by simp [hzero], fun bits' z _ hne => ?_⟩
  rw [hzero] at hne ⊢
  simpa using hne

end

/-! ## Decoded gains -/

/-- The range of the exact decoded gain (41_gain_codec.md R122 (d)). -/
theorem decodedReal_bounds {shift : BitVec 4} {scale : BitVec 16} (h : 1 ≤ scale.toNat) :
    1 / 2 ^ 19 ≤ decodedReal shift scale ∧ decodedReal shift scale < 2 ^ 14 := by
  have hroot : 2 < Real.sqrt 5 := Real.lt_sqrt_of_sq_lt (by norm_num)
  have hroot' : Real.sqrt 5 < 3 := (Real.sqrt_lt' (by norm_num)).mpr (by norm_num)
  have hone : (1 : ℝ) ≤ scale.toNat := by exact_mod_cast h
  have hscale : (scale.toNat : ℝ) ≤ 65535 := by exact_mod_cast Nat.le_of_lt_succ scale.isLt
  have hpow : (1 : ℝ) ≤ 2 ^ shift.toNat := one_le_pow₀ one_le_two
  have hpow' : (2 : ℝ) ^ shift.toNat ≤ 2 ^ 15 := pow_le_pow_right₀ one_le_two (Nat.le_of_lt_succ shift.isLt)
  have hlow : 1 * 1 ≤ (scale.toNat : ℝ) * 2 ^ shift.toNat := by gcongr
  have hhigh : (scale.toNat : ℝ) * 2 ^ shift.toNat ≤ 65535 * 2 ^ 15 := by gcongr
  have hc := cNorm_pos
  rw [decodedReal, le_div_iff₀ (by positivity), div_lt_iff₀ (by positivity), cNorm_eq]
  constructor <;> linarith

theorem decodeExact_scale_zero (shift : BitVec 4) :
    decodeExact shift 0 = ⟨0, 0, Config.scaleOne * (10 * Config.kNormNum) - 1⟩ := by
  simp [decodeExact]

theorem decodedReal_zero (shift : BitVec 4) : decodedReal shift 0 = 0 := by
  simp [decodedReal]

/-- Every decoded gain is 0 or of the normal range of a format with these widths. -/
theorem roundsTo_decodeExact {mbits ebits unit : ℕ} (hmin : mbits + 19 ≤ unit)
    (hmax : unit + 15 < mbits + (2 ^ ebits - 1)) (hebits : 2 ≤ ebits) (shift : BitVec 4) (scale : BitVec 16) :
    RoundsTo mbits ebits unit (decodedReal shift scale) (roundBits mbits ebits unit (decodeExact shift scale)) := by
  by_cases hscale : scale = 0
  · subst hscale
    rw [decodedReal_zero, decodeExact_scale_zero, roundBits_zero]
    exact roundsTo_zero hebits
  · have hone : 1 ≤ scale.toNat := Nat.pos_of_ne_zero fun h => hscale (BitVec.eq_of_toNat_eq h)
    obtain ⟨hlow, hhigh⟩ := decodedReal_bounds (shift := shift) hone
    have hroot : (decodeExact shift scale).root ≠ 0 := by
      have hpos : 0 < Config.kNormDen * (scale.toNat * 2 ^ shift.toNat) := by positivity
      exact Int.natCast_ne_zero.mpr hpos.ne'
    rw [← surdReal_decodeExact] at *
    refine roundsTo_roundBits hroot (H := unit + 14 - mbits) ?_ ?_ (by omega)
    · calc (2 : ℝ) ^ mbits ≤ 2 ^ (unit - 19) := pow_le_pow_right₀ one_le_two (by omega)
        _ = 1 / 2 ^ 19 * 2 ^ unit := by
          rw [pow_sub₀ _ two_ne_zero (by omega)]
          ring
        _ ≤ _ := by gcongr
    · rw [show mbits + (unit + 14 - mbits) = 14 + unit by omega, pow_add]
      gcongr

/-- What `RoundsTo` says of bits, of a gain and the gains of its format. -/
def GainRoundsTo {width : ℕ} (ofBits : BitVec width → Gain) (mbits : ℕ) (r : ℝ) (g : Gain) : Prop :=
  ∃ y, gainValue g = some y ∧ |realValue y - r| ≤ r / 2 ^ (mbits + 1) ∧
    ∀ b z, gainValue (ofBits b) = some z → realValue z ≠ realValue y → |realValue y - r| < |realValue z - r|

theorem RoundsTo.gain {mbits ebits unit width bits : ℕ} {r : ℝ} (h : RoundsTo mbits ebits unit r bits)
    {ofBits : BitVec width → Gain}
    (hval : ∀ b, gainValue (ofBits b) = (binaryValue mbits ebits (unit + 1) b.toNat).map .surd)
    (hlt : bits < 2 ^ width) : GainRoundsTo ofBits mbits r (ofBits (BitVec.ofNat width bits)) := by
  obtain ⟨y, hy, herror, hnearest⟩ := h
  refine ⟨.surd y, ?_, herror, fun b z hz hne => ?_⟩
  · rw [hval, BitVec.toNat_ofNat, Nat.mod_eq_of_lt hlt, hy, Option.map_some]
  · rw [hval] at hz
    obtain ⟨z', hz', rfl⟩ := Option.map_eq_some_iff.mp hz
    exact hnearest _ z' hz' hne

theorem decodeGainIn_binary64_roundsTo (shift : BitVec 4) (scale : BitVec 16) :
    GainRoundsTo .binary64 52 (decodedReal shift scale) (decodeGainIn .binary64 shift scale) :=
  (roundsTo_decodeExact (by norm_num) (by norm_num) (by norm_num) shift scale).gain (fun _ => rfl) (roundBits_lt _)

theorem decodeGainIn_binary32_roundsTo (shift : BitVec 4) (scale : BitVec 16) :
    GainRoundsTo .binary32 23 (decodedReal shift scale) (decodeGainIn .binary32 shift scale) :=
  (roundsTo_decodeExact (by norm_num) (by norm_num) (by norm_num) shift scale).gain (fun _ => rfl) (roundBits_lt _)

/-- Settles O49: a decoded gain other than 0 is irrational and of the normal range, so rounding meets no tie. -/
theorem decodedBinaryGainIsCorrectlyRounded : Obligations.DecodedBinaryGainIsCorrectlyRounded := by
  intro shift scale
  obtain ⟨y, hy, -, hnearest⟩ := decodeGainIn_binary64_roundsTo shift scale
  obtain ⟨y', hy', -, hnearest'⟩ := decodeGainIn_binary32_roundsTo shift scale
  refine ⟨?_, ⟨y, hy, hnearest⟩, y', hy', hnearest'⟩
  rintro rfl
  rw [decodeGainIn, decodeGainIn, decodeExact_scale_zero, fl, fl, roundBits_zero, roundBits_zero]
  exact ⟨rfl, rfl⟩

/-- Settles O59: half a unit in the last place of a number of the normal range. -/
theorem decodedBinaryGainHasRelativeError : Obligations.DecodedBinaryGainHasRelativeError := by
  intro shift scale
  obtain ⟨y, hy, herror, -⟩ := decodeGainIn_binary64_roundsTo shift scale
  obtain ⟨y', hy', herror', -⟩ := decodeGainIn_binary32_roundsTo shift scale
  exact ⟨⟨y, hy, herror⟩, y', hy', herror'⟩

end Sys2Proof.Machine

/-! The codec's units as instructions, the register word and the two sample-rate conversions (41_gain_codec.md R121 to
R126; log entry 1). -/

namespace Sys2Proof.Machine

/-! ## Replies of the units -/

section
variable (s : State)

theorem exec_encodeGain_ok {g : Gain} {e : Encoded} (h : encodeGain g = .ok e) :
    exec (.encodeGain g) s = reply (.ok (.encoded e)) s := by
  simp only [exec, execEncodeGain, h]

theorem exec_encodeGain_error {g : Gain} {why : ArgInfo} (h : encodeGain g = .error why) :
    exec (.encodeGain g) s = reply (.invalidArgument why) s := by
  simp only [exec, execEncodeGain, h, raiseInvalidArgument]

theorem exec_decodeGain (shift : BitVec 4) (scale : BitVec 16) :
    exec (.decodeGain shift scale) s = reply (.ok (.gain (decodeGain shift scale))) s := rfl

theorem exec_pack (shift scale : ℕ) :
    exec (.pack shift scale) s = reply (.ok (.word (pack shift scale))) s := rfl

theorem exec_unpack (w : Word) :
    exec (.unpack w) s = reply (.ok (.fields (unpack w).1 (unpack w).2)) s := rfl

theorem exec_frameCountOf {size : Word} (h : size ≠ 0) (rate : Word) :
    exec (.frameCountOf rate size) s = reply (.ok (.word (frameCountOf rate size))) s := by
  simp only [exec, execFrameCountOf, if_neg h]

theorem exec_frameCountOf_zero (rate : Word) :
    exec (.frameCountOf rate 0) s = reply (.invalidArgument .inputFrameSize) s := by
  simp only [exec, execFrameCountOf, if_true, raiseInvalidArgument]

theorem exec_sampleRateOf (f : Word) :
    exec (.sampleRateOf f) s = reply (.ok (.word (sampleRateOf f))) s := rfl

end

/-! ## Values of the units -/

theorem pack_toNat (shift scale : ℕ) : (pack shift scale).toNat = shift % 16 + 16 * (scale % 65536) := by
  rw [pack, pack_arith, BitVec.toNat_ofNat]
  omega

theorem unpack_shift_toNat (w : Word) : (unpack w).1.toNat = w.toNat % 16 := by
  simp only [unpack, shiftField, BitVec.extractLsb'_toNat, Config.shiftLsb, Config.shiftW, Nat.shiftRight_zero]

theorem unpack_scale_toNat (w : Word) : (unpack w).2.toNat = w.toNat / 16 % 65536 := by
  simp only [unpack, scaleField, BitVec.extractLsb'_toNat, Config.scaleLsb, Config.scaleW, Nat.shiftRight_eq_div_pow]

theorem pack_unpack_toNat (w : Word) :
    (pack (unpack w).1.toNat (unpack w).2.toNat).toNat = w.toNat % 2 ^ 20 := by
  rw [pack_toNat, unpack_shift_toNat, unpack_scale_toNat]
  omega

theorem frameCountOf_toNat (rate size : Word) : (frameCountOf rate size).toNat = rate.toNat / size.toNat := by
  have h := Nat.div_le_self rate.toNat size.toNat
  rw [frameCountOf, BitVec.toNat_ofNat]
  exact Nat.mod_eq_of_lt (lt_of_le_of_lt h rate.isLt)

theorem sampleRateOf_toNat (f : Word) : (sampleRateOf f).toNat = f.toNat * 18 % 2 ^ 32 := by
  rw [sampleRateOf, BitVec.toNat_ofNat, Config.srFactor]

/-! ## The statements on the units -/

/-- Settles O33: the codec's answer is the unit's reply, and its one error names the gain. -/
theorem encodeGainUnitReplies : Obligations.EncodeGainUnitReplies := by
  refine fun s g => ⟨fun e h => exec_encodeGain_ok s h, fun why h => ?_⟩
  obtain rfl := encodeGain_eq_error_gain h
  exact ⟨rfl, exec_encodeGain_error s h⟩

/-- Settles O34: the number that `fl` rounds is the one of `decodeExact`. -/
theorem decodeGainUnitReplies : Obligations.DecodeGainUnitReplies := by
  intro s shift scale
  exact ⟨decodeExact shift scale, surdReal_decodeExact shift scale, exec_decodeGain s shift scale⟩

/-- Settles O35: the word is determined by its value, the two masked fields side by side. -/
theorem packBuildsTheWord : Obligations.PackBuildsTheWord := by
  intro s shift scale w hw
  obtain rfl : w = pack shift scale := BitVec.eq_of_toNat_eq (hw.trans (pack_toNat shift scale).symm)
  exact ⟨by omega, hw.trans (pack_arith shift scale).symm, exec_pack s shift scale⟩

/-- Settles O36: the fields are determined by their values, and packing them again drops the reserved bits. -/
theorem unpackTakesTheFields : Obligations.UnpackTakesTheFields := by
  refine ⟨fun s w shift scale hshift hscale => ?_, fun a b => ?_, pack_unpack_toNat, fun w => ?_⟩
  · obtain rfl : shift = (unpack w).1 := BitVec.eq_of_toNat_eq (hshift.trans (unpack_shift_toNat w).symm)
    obtain rfl : scale = (unpack w).2 := BitVec.eq_of_toNat_eq (hscale.trans (unpack_scale_toNat w).symm)
    exact exec_unpack s w
  · rw [unpack_shift_toNat, unpack_scale_toNat, pack_toNat]
    omega
  · rw [← BitVec.toNat_inj, pack_unpack_toNat]
    omega

/-- Settles O37: the check of the divisor, then the quotient. -/
theorem frameCountOfDivides : Obligations.FrameCountOfDivides := by
  refine fun s rate size w => ⟨fun hsize hw => ?_, exec_frameCountOf_zero s rate⟩
  obtain rfl : w = frameCountOf rate size := BitVec.eq_of_toNat_eq (hw.trans (frameCountOf_toNat rate size).symm)
  exact exec_frameCountOf s hsize rate

/-- Settles O38: under `NoWrap` the product is below `2 ^ 32`. -/
theorem sampleRateOfMultiplies : Obligations.SampleRateOfMultiplies := by
  intro s f w hw
  obtain rfl : w = sampleRateOf f := BitVec.eq_of_toNat_eq (hw.trans (sampleRateOf_toNat f).symm)
  refine ⟨exec_sampleRateOf s f, fun hnowrap => ?_⟩
  rw [hw]
  exact Nat.mod_eq_of_lt (by omega)

theorem sampleRateOf_frameCountOf_toNat (rate size : Word) :
    (sampleRateOf (frameCountOf rate size)).toNat = 18 * (rate.toNat / size.toNat) % 2 ^ 32 := by
  rw [sampleRateOf_toNat, frameCountOf_toNat, Nat.mul_comm]

/-- With frame size 18 the product does not exceed the rate, so nothing wraps. -/
theorem sampleRateOf_frameCountOf_18_toNat (rate : Word) :
    (sampleRateOf (frameCountOf rate 18)).toNat = rate.toNat - rate.toNat % 18 := by
  have hrate := rate.isLt
  rw [sampleRateOf_frameCountOf_toNat, show (18 : Word).toNat = 18 from rfl]
  omega

/-- Settles O39: the remainder of the division is what the product cannot bring back. -/
theorem sampleRateRoundTrip : Obligations.SampleRateRoundTrip := by
  refine ⟨sampleRateOf_frameCountOf_18_toNat, fun rate => ?_,
    fun rate size _ => sampleRateOf_frameCountOf_toNat rate size⟩
  rw [← BitVec.toNat_inj, sampleRateOf_frameCountOf_18_toNat]
  omega

end Sys2Proof.Machine

/-! Sequences of transactions (20_memory.md R66, 60_exceptions.md R183): the outcomes of the script, the state that a
run of writes or of reads leaves behind when it completes, and where it stops when transaction number `k` fails. -/

namespace Sys2Proof.Machine

/-! ## The outcomes of the script -/

theorem failsAt_zero_iff {s : State} : FailsAt 0 s ↔ nextOutcome s = .fault := by
  refine ⟨nextOutcome_eq_fault, fun h => ⟨nofun, ?_⟩⟩
  unfold nextOutcome at h
  cases hs : s.busScript with
  | nil => rw [hs] at h; cases h
  | cons o rest => rw [hs] at h; exact congrArg some h

theorem failsAt_succ {k : Nat} {s : State} :
    FailsAt (k + 1) s ↔ nextOutcome s = .ok ∧ FailsAt k (dropOutcome s) := by
  simp only [FailsAt, outcomesOk_succ, and_assoc, dropOutcome_busScript, List.getElem?_tail]

theorem outcomesOk_congr {n : Nat} {s t : State} (h : t.busScript = s.busScript) (hok : OutcomesOk n s) :
    OutcomesOk n t := by
  rwa [OutcomesOk, h]

theorem failsAt_congr {k : Nat} {s t : State} (h : t.busScript = s.busScript) (hfail : FailsAt k s) :
    FailsAt k t := by
  rwa [FailsAt, OutcomesOk, h]

/-- Either the next `n` transactions complete, or there is a first one that fails. -/
theorem outcomesOk_or_failsAt (n : Nat) (s : State) : OutcomesOk n s ∨ ∃ k < n, FailsAt k s := by
  induction n generalizing s with
  | zero => exact .inl nofun
  | succ n ih =>
    cases ho : nextOutcome s with
    | fault => exact .inr ⟨0, Nat.succ_pos n, failsAt_zero_iff.mpr ho⟩
    | ok =>
      obtain hok | ⟨k, hk, hfail⟩ := ih (dropOutcome s)
      · exact .inl (outcomesOk_succ.mpr ⟨ho, hok⟩)
      · exact .inr ⟨k + 1, Nat.succ_lt_succ hk, failsAt_succ.mpr ⟨ho, hfail⟩⟩

/-! ## One transaction after another -/

theorem inWindow_addrOf {base : Nat} (hb : base % 4 = 0) (r : Reg) : InWindow base (addrOf base r) :=
  exists_windowReg_iff.mp ⟨r, windowReg_addrOf base r hb⟩

@[simp] theorem BusResult.done_andThen {α β : Type} (a : α) (s : State) (k : α → State → BusResult β) :
    (BusResult.done a s).andThen k = k a s := rfl

@[simp] theorem BusResult.failed_andThen {α β : Type} (addr : Nat) (dir : Direction) (s : State)
    (k : α → State → BusResult β) : (BusResult.failed addr dir s).andThen k = .failed addr dir s := rfl

theorem BusResult.andThen_assoc {α β γ : Type} (x : BusResult α) (k : α → State → BusResult β)
    (l : β → State → BusResult γ) : (x.andThen k).andThen l = x.andThen fun a s => (k a s).andThen l := by
  cases x <;> rfl

theorem endCommand_failed (addr : Nat) (dir : Direction) (s : State) :
    endCommand (.failed addr dir s) = raiseDeviceFault addr dir s := rfl

/-! ## Writes -/

/-- Writes to each register in turn the word that `word` gives it. -/
def writeAll (base : Nat) (word : Reg → Word) : List Reg → State → BusResult Unit
  | [], s => .done () s
  | r :: rest, s => (busWrite base (addrOf base r) (word r) s).andThen fun _ s => writeAll base word rest s

/-- The state once these registers have been written: their words, their entries in order, their outcomes taken. -/
def afterWrites (base : Nat) (word : Reg → Word) (regs : List Reg) (s : State) : State :=
  { s with
    fc := if .fc ∈ regs then word .fc else s.fc
    fs := Vector.ofFn fun j : Fin 20 => if .fs j ∈ regs then word (.fs j) else s.fs[j]
    busTrace := s.busTrace ++ regs.map fun r => ⟨.write, addrOf base r, word r⟩
    busScript := s.busScript.drop regs.length }

theorem writeAll_append (base : Nat) (word : Reg → Word) (regs regs' : List Reg) (s : State) :
    writeAll base word (regs ++ regs') s =
      (writeAll base word regs s).andThen fun _ s => writeAll base word regs' s := by
  induction regs generalizing s with
  | nil => rfl
  | cons r rest ih =>
    simp only [List.cons_append, writeAll, BusResult.andThen_assoc, ih]

@[simp] theorem afterWrites_nil (base : Nat) (word : Reg → Word) (s : State) : afterWrites base word [] s = s := by
  simp [afterWrites]

section
variable {base : Nat} {word : Reg → Word} (hb : base % 4 = 0) (hword : ∀ i, rsvdField (word (.fs i)) = 0)

include hword in
theorem afterWrites_cons (r : Reg) (rest : List Reg) (s : State) :
    afterWrites base word (r :: rest) s =
      afterWrites base word rest (record ⟨.write, addrOf base r, word r⟩ (writeReg r (word r) (dropOutcome s))) := by
  cases r with
  | fc => simp [afterWrites, record, dropOutcome]
  | fs i =>
    have hfs : (Vector.ofFn fun j : Fin 20 => if Reg.fs j ∈ Reg.fs i :: rest then word (.fs j) else s.fs[j]) =
        Vector.ofFn fun j : Fin 20 => if Reg.fs j ∈ rest then word (.fs j) else (s.fs.set i (word (.fs i)))[j] := by
      congr 1
      funext j
      by_cases hij : j = i
      · simp [hij]
      · have hne : i.val ≠ j.val := fun h => hij (Fin.ext h.symm)
        simp [hij, Vector.getElem_set_ne i.isLt j.isLt hne]
    rw [writeReg_fs_exact i _ _ (hword i), afterWrites, hfs]
    simp [afterWrites, record, dropOutcome]

include hb hword

theorem writeAll_done (regs : List Reg) (s : State) (h : OutcomesOk regs.length s) :
    writeAll base word regs s = .done () (afterWrites base word regs s) := by
  induction regs generalizing s with
  | nil => rw [afterWrites_nil, writeAll]
  | cons r rest ih =>
    obtain ⟨ho, hrest⟩ := outcomesOk_succ.mp h
    rw [writeAll, busWrite_addrOf r _ hb ho, afterWrites_cons hword, BusResult.done_andThen]
    exact ih _ (outcomesOk_congr (by simp) hrest)

theorem writeAll_failed (regs : List Reg) {k : Nat} (hk : k < regs.length) (s : State) (h : FailsAt k s) :
    writeAll base word regs s =
      .failed (addrOf base regs[k]) .write (dropOutcome (afterWrites base word (regs.take k) s)) := by
  induction regs generalizing s k with
  | nil => exact absurd hk (Nat.not_lt_zero k)
  | cons r rest ih =>
    cases k with
    | zero =>
      rw [writeAll, busWrite_fault (inWindow_addrOf hb r) (nextOutcome_eq_fault h), List.take_zero, afterWrites_nil]
      rfl
    | succ k =>
      obtain ⟨ho, hrest⟩ := failsAt_succ.mp h
      rw [writeAll, busWrite_addrOf r _ hb ho, List.take_succ_cons, afterWrites_cons hword, BusResult.done_andThen]
      exact ih (Nat.lt_of_succ_lt_succ hk) _ (failsAt_congr (by simp) hrest)

/-- A command that writes these registers and then answers `v`. -/
theorem endCommand_writeAll_ok (regs : List Reg) {s : State} (h : OutcomesOk regs.length s) (v : Value) :
    endCommand ((writeAll base word regs s).andThen fun _ s => .done v s) =
      .next { afterWrites base word regs s with result := some (.ok v) } := by
  rw [writeAll_done hb hword regs s h]
  rfl

/-- A command whose write number `k` fails. -/
theorem endCommand_writeAll_failed (regs : List Reg) {k : Nat} (hk : k < regs.length) {s : State} (h : FailsAt k s)
    (v : Value) :
    endCommand ((writeAll base word regs s).andThen fun _ s => .done v s) =
      if Config.busFaultDetect then
        .next { afterWrites base word (regs.take k) s with
          busScript := s.busScript.drop (k + 1)
          faultMark := true
          result := some (.deviceFault (addrOf base regs[k]) .write) }
      else .refused .undetectedBusFault := by
  have hscript : (afterWrites base word (regs.take k) s).busScript.drop 1 = s.busScript.drop (k + 1) := by
    simp [afterWrites, Nat.min_eq_left hk.le]
  rw [writeAll_failed hb hword regs hk s h, BusResult.failed_andThen, endCommand_failed,
    raiseDeviceFault_dropOutcome, hscript]

/-- However a run of writes ends, it is the state after some of them, whatever is left of the script. -/
theorem writeAll_endsIn (regs : List Reg) (s : State) :
    (writeAll base word regs s).EndsIn fun t =>
      ∃ k script, t = { afterWrites base word (regs.take k) s with busScript := script } := by
  obtain hok | ⟨k, hk, hfail⟩ := outcomesOk_or_failsAt regs.length s
  · rw [writeAll_done hb hword regs s hok]
    exact ⟨regs.length, _, by rw [List.take_length]⟩
  · rw [writeAll_failed hb hword regs hk s hfail]
    exact ⟨k, _, rfl⟩

end

/-! ## Reads -/

/-- The state once these registers have been read: their entries in order, their outcomes taken. -/
def afterReads (base : Nat) (regs : List Reg) (s : State) : State :=
  { s with
    busTrace := s.busTrace ++ regs.map fun r => ⟨.read, addrOf base r, readReg s r⟩
    busScript := s.busScript.drop regs.length }

@[simp] theorem afterReads_nil (base : Nat) (s : State) : afterReads base [] s = s := by
  simp [afterReads]

theorem afterReads_cons (base : Nat) (r : Reg) (rest : List Reg) (s : State) :
    afterReads base (r :: rest) s =
      afterReads base rest (record ⟨.read, addrOf base r, readReg s r⟩ (dropOutcome s)) := by
  have hread : readReg (record ⟨.read, addrOf base r, readReg s r⟩ (dropOutcome s)) = readReg s :=
    funext (readReg_congr rfl rfl)
  rw [afterReads, afterReads, hread]
  simp [record, dropOutcome]

theorem afterReads_append (base : Nat) (regs regs' : List Reg) (s : State) :
    afterReads base (regs ++ regs') s = afterReads base regs' (afterReads base regs s) := by
  induction regs generalizing s with
  | nil => rw [List.nil_append, afterReads_nil]
  | cons r rest ih => rw [List.cons_append, afterReads_cons, ih, ← afterReads_cons]

section
variable {base : Nat} (hb : base % 4 = 0)
include hb

theorem statusLoop_done (indices : List (Fin 20)) (s : State) (h : OutcomesOk indices.length s) :
    statusLoop base indices s =
      .done (indices.map fun i => decodeWord s.fs[i]) (afterReads base (indices.map .fs) s) := by
  induction indices generalizing s with
  | nil => rw [List.map_nil, List.map_nil, afterReads_nil, statusLoop]
  | cons i rest ih =>
    obtain ⟨ho, hrest⟩ := outcomesOk_succ.mp h
    rw [statusLoop, ← addrOf, busRead_addrOf (.fs i) hb ho, BusResult.done_andThen,
      ih (record _ (dropOutcome s)) hrest, List.map_cons, List.map_cons, afterReads_cons]
    rfl

theorem statusLoop_failed (indices : List (Fin 20)) {k : Nat} (hk : k < indices.length) (s : State)
    (h : FailsAt k s) :
    statusLoop base indices s =
      .failed (addrOf base (.fs indices[k])) .read (dropOutcome (afterReads base ((indices.take k).map .fs) s)) := by
  induction indices generalizing s k with
  | nil => exact absurd hk (Nat.not_lt_zero k)
  | cons i rest ih =>
    cases k with
    | zero =>
      rw [statusLoop, ← addrOf, busRead_fault (inWindow_addrOf hb _) (nextOutcome_eq_fault h), List.take_zero,
        List.map_nil, afterReads_nil]
      rfl
    | succ k =>
      obtain ⟨ho, hrest⟩ := failsAt_succ.mp h
      rw [statusLoop, ← addrOf, busRead_addrOf (.fs i) hb ho, BusResult.done_andThen,
        ih (Nat.lt_of_succ_lt_succ hk) (record _ (dropOutcome s)) hrest, List.take_succ_cons, List.map_cons,
        afterReads_cons]
      rfl

end

end Sys2Proof.Machine

/-! The commands without transactions (42_device_ops.md R150, R154, R155, R159) and the refusal of a command that comes
before CONSTRUCT. -/

namespace Sys2Proof.Machine

theorem step_of_decode_ok {s : State} {f : Frame} {rest : List Input} {i : Instr}
    (hp : s.pending = .request f :: rest) (hd : decode f = .ok i) : step s = exec i { s with pending := rest } := by
  simp only [step, fetch, taken, hp, hd, List.tail_cons]

/-- Settles O5: of the presented things only the head decides, and taking it leaves the rest. -/
theorem stepRunsTheDecodedInstruction : Obligations.StepRunsTheDecodedInstruction :=
  fun _ _ _ _ => step_of_decode_ok

/-! ## With and without a Device -/

theorem withDevice_none {s : State} (hd : s.device = none) (k : Device → Host.Outcome State Fault Refusal) :
    withDevice s k = .refused .notConstructed := by
  simp only [withDevice, hd]

theorem withDevice_reply {s : State} (hd : s.device ≠ none) (r : Result) :
    (withDevice s fun _ => reply r s) = .next { s with result := some r } := by
  obtain ⟨d, hd⟩ := Option.ne_none_iff_exists'.mp hd
  exact withDevice_some hd _

/-- Settles O11: each of these meanings begins with `withDevice`. -/
theorem commandsAreRefusedBeforeConstruct : Obligations.CommandsAreRefusedBeforeConstruct := by
  intro s hd
  have refused := withDevice_none hd
  exact ⟨fun _ _ => refused _, fun _ => refused _, refused _, fun _ => refused _, refused _, fun _ => refused _,
    fun _ => refused _, fun _ => refused _, fun _ => refused _⟩

/-- Settles O28: the meaning of START is the reply alone. -/
theorem startIsInert : Obligations.StartIsInert :=
  fun _ hd => withDevice_reply hd _

/-- Settles O29: the meaning of STOP does not use its operand. -/
theorem stopIsInert : Obligations.StopIsInert :=
  fun _ _ => ⟨fun hd => withDevice_reply hd _, rfl⟩

/-! ## CONSTRUCT -/

theorem exec_construct_again {s : State} (hd : s.device ≠ none) (name : List Byte) (base : Nat) :
    exec (.construct name base) s = .refused .alreadyConstructed := by
  obtain ⟨d, hd⟩ := Option.ne_none_iff_exists'.mp hd
  simp only [exec, execConstruct, hd]

theorem exec_construct_first {s : State} (hd : s.device = none) (name : List Byte) (base : Nat) :
    exec (.construct name base) s =
      if validBase base then reply (.ok .none) { s with device := some ⟨name, base⟩ } else .refused .invalidBase := by
  simp only [exec, execConstruct, hd]

/-- Settles O9: the two conditions on the base are what `validBase` tests. -/
theorem constructBindsTheIdentity : Obligations.ConstructBindsTheIdentity := by
  intro s name base hd halign hfits
  rw [exec_construct_first hd, if_pos ((validBase_iff base).mpr ⟨halign, hfits⟩)]
  rfl

/-- Settles O10: a Device is looked for first, then the base is tested. -/
theorem constructIsRefusedTwiceOrOnBadBase : Obligations.ConstructIsRefusedTwiceOrOnBadBase := by
  intro s name base
  refine ⟨fun hd => exec_construct_again hd name base, fun hd hbad => ?_⟩
  have hinvalid : ¬ validBase base = true := by
    rw [validBase_iff]
    omega
  rw [exec_construct_first hd, if_neg hinvalid]

end Sys2Proof.Machine

/-! CONFIGURE and DECONFIGURE (42_device_ops.md R151, R152, R157): what `validate` answers for each operand, and the two
writes. -/

namespace Sys2Proof.Machine

/-! ## validate -/

section
variable {c : VccConfig}

theorem validate_channel (hc : 10 ≤ c.channel.toNat) : validate c = .error .channel :=
  dif_neg (Nat.not_lt.mpr hc)

theorem validate_pol (hc : c.channel.toNat < 10) (hp : 2 ≤ c.pol.toNat) : validate c = .error .pol := by
  rw [validate, dif_pos hc, dif_neg (Nat.not_lt.mpr hp)]

theorem validate_inputFrameSize (hc : c.channel.toNat < 10) (hp : c.pol.toNat < 2) (hs : c.inputFrameSize = 0) :
    validate c = .error .inputFrameSize := by
  rw [validate, dif_pos hc, dif_pos hp, if_pos hs]

theorem positiveValue_eq_none {g : Gain} {why : ArgInfo} (h : encodeGain g = .error why) : positiveValue g = none := by
  cases hg : positiveValue g with
  | none => rfl
  | some x =>
    rw [encodeGain, hg] at h
    cases h

theorem validate_gain (hc : c.channel.toNat < 10) (hp : c.pol.toNat < 2) (hs : c.inputFrameSize ≠ 0)
    {why : ArgInfo} (hg : encodeGain c.gain = .error why) : validate c = .error .gain := by
  rw [validate, dif_pos hc, dif_pos hp, if_neg hs, positiveValue_eq_none hg]

theorem validate_ok (hc : c.channel.toNat < 10) (hp : c.pol.toNat < 2) (hs : c.inputFrameSize ≠ 0) {e : Encoded}
    (hg : encodeGain c.gain = .ok e) :
    ∃ x, e = encodeExact x ∧ validate c =
      .ok ⟨c.sampleRate, c.inputFrameSize, ⟨c.channel.toNat, hc⟩, ⟨c.pol.toNat, hp⟩, x⟩ := by
  obtain ⟨x, hx, hpos, he⟩ := encodeGain_eq_ok_iff.mp hg
  exact ⟨x, he, (validate_ok_iff _ _).mpr ⟨rfl, rfl, hs, rfl, rfl, positiveValue_eq_some_iff.mpr ⟨hx, hpos⟩⟩⟩

end

/-- 1.0 encodes (41_gain_codec.md R134). -/
theorem encodeGain_unityGain : encodeGain (.real unityGain) = .ok (encodeExact unityGain) := rfl

/-! ## Bad operands -/

theorem configureWith_error {s : State} (hd : s.device ≠ none) {c : VccConfig} {info : ArgInfo}
    (hv : validate c = .error info) : configureWith c s = .next { s with result := some (.invalidArgument info) } := by
  obtain ⟨d, hd⟩ := Option.ne_none_iff_exists'.mp hd
  rw [configureWith, withDevice_some hd, hv]
  rfl

/-- Settles O22: `validate` answers the first bad operand, and DECONFIGURE's forced gain is looked at last. -/
theorem badOperandsChangeNothing : Obligations.BadOperandsChangeNothing := by
  intro s c hd
  refine ⟨fun hc => ⟨?_, ?_⟩, fun hc hp => ⟨?_, ?_⟩, fun hc hp hs => ⟨?_, ?_⟩, fun hc hp hs hg => ?_⟩
  · exact configureWith_error hd (validate_channel hc)
  · exact configureWith_error hd (validate_channel hc)
  · exact configureWith_error hd (validate_pol hc hp)
  · exact configureWith_error hd (validate_pol hc hp)
  · exact configureWith_error hd (validate_inputFrameSize hc hp hs)
  · exact configureWith_error hd (validate_inputFrameSize hc hp hs)
  · exact configureWith_error hd (validate_gain hc hp hs hg)

/-! ## The writes -/

/-- The word that each register is given when `FC` is to hold `fc` and an `FS` register the encoded pair. -/
def configuredWord (fc : Word) (e : Encoded) : Reg → Word
  | .fc => fc
  | .fs _ => packEncoded e

theorem rsvdField_configuredWord (fc : Word) (e : Encoded) (i : Fin 20) :
    rsvdField (configuredWord fc e (.fs i)) = 0 := by
  apply rsvdField_eq_zero
  rw [configuredWord, packEncoded_toNat]
  omega

theorem configureWrites_eq (base : Nat) (c : ValidConfig) (s : State) :
    configureWrites base c s =
      (writeAll base (configuredWord (frameCountOf c.sampleRate c.inputFrameSize) (encodeExact c.gain))
        [.fc, .fs (regIndex c.channel c.pol)] s).andThen fun _ s => .done (encodeExact c.gain).outOfRange s := by
  simp only [writeAll, BusResult.andThen_assoc, BusResult.done_andThen]
  rfl

theorem configureWith_ok {s : State} {d : Device} (hd : s.device = some d) {c : VccConfig} {v : ValidConfig}
    (hv : validate c = .ok v) :
    configureWith c s =
      endCommand ((writeAll d.base (configuredWord (frameCountOf v.sampleRate v.inputFrameSize) (encodeExact v.gain))
        [.fc, .fs (regIndex v.channel v.pol)] s).andThen
          fun _ s => .done (.outOfRange (encodeExact v.gain).outOfRange) s) := by
  rw [configureWith, withDevice_some hd, hv]
  simp only [configureWrites_eq, BusResult.andThen_assoc, BusResult.done_andThen]

section
variable {s : State} {d : Device} {c : VccConfig} {e : Encoded} {i : Fin 20} {fc : Word}
  (hd : s.device = some d) (hc : c.channel.toNat < 10) (hp : c.pol.toNat < 2) (hs : c.inputFrameSize ≠ 0)
  (hg : encodeGain c.gain = .ok e) (hi : i.val = c.channel.toNat + c.pol.toNat * 10)
  (hfc : fc.toNat = c.sampleRate.toNat / c.inputFrameSize.toNat)
include hd hc hp hs hg hi hfc

/-- Valid operands are two writes and the flag. -/
theorem configureWith_valid :
    configureWith c s = endCommand ((writeAll d.base (configuredWord fc e) [.fc, .fs i] s).andThen
      fun _ s => .done (.outOfRange e.outOfRange) s) := by
  obtain ⟨x, rfl, hv⟩ := validate_ok hc hp hs hg
  obtain rfl : fc = frameCountOf c.sampleRate c.inputFrameSize :=
    BitVec.eq_of_toNat_eq (hfc.trans (frameCountOf_toNat _ _).symm)
  obtain rfl : i = regIndex ⟨c.channel.toNat, hc⟩ ⟨c.pol.toNat, hp⟩ := Fin.ext hi
  exact configureWith_ok hd hv

variable (hb : d.base % 4 = 0)
include hb

theorem configureWith_completes (hok : OutcomesOk 2 s) :
    configureWith c s =
      .next { s with
        fc := fc
        fs := s.fs.set i (packEncoded e)
        busTrace := s.busTrace ++ [⟨.write, d.base, fc⟩, ⟨.write, d.base + 4 + 4 * i.val, packEncoded e⟩]
        busScript := s.busScript.drop 2
        result := some (.ok (.outOfRange e.outOfRange)) } := by
  have hfs : (Vector.ofFn fun j : Fin 20 => if Reg.fs j ∈ [Reg.fc, .fs i] then packEncoded e else s.fs[j]) =
      s.fs.set i (packEncoded e) := by
    ext j hj
    simp [Vector.getElem_set, Fin.ext_iff, eq_comm (a := j)]
  rw [configureWith_valid hd hc hp hs hg hi hfc,
    endCommand_writeAll_ok hb (rsvdField_configuredWord fc e) [.fc, .fs i] hok, ← addrOf_fs, ← hfs]
  rfl

theorem configureWith_first_fails (hfail : FailsAt 0 s) :
    configureWith c s =
      if Config.busFaultDetect then
        .next { s with
          busScript := s.busScript.drop 1, faultMark := true, result := some (.deviceFault d.base .write) }
      else .refused .undetectedBusFault := by
  rw [configureWith_valid hd hc hp hs hg hi hfc,
    endCommand_writeAll_failed hb (rsvdField_configuredWord fc e) [.fc, .fs i] Nat.zero_lt_two hfail, List.take_zero,
    afterWrites_nil]
  rfl

theorem configureWith_second_fails (hfail : FailsAt 1 s) :
    configureWith c s =
      if Config.busFaultDetect then
        .next { s with
          fc := fc
          busTrace := s.busTrace ++ [⟨.write, d.base, fc⟩]
          busScript := s.busScript.drop 2
          faultMark := true
          result := some (.deviceFault (d.base + 4 + 4 * i.val) .write) }
      else .refused .undetectedBusFault := by
  have hfirst : afterWrites d.base (configuredWord fc e) [.fc] s =
      { s with
        fc := fc
        busTrace := s.busTrace ++ [⟨.write, d.base, fc⟩]
        busScript := s.busScript.drop 1 } := by
    simp [afterWrites, configuredWord, addrOf, fcAddr]
  rw [configureWith_valid hd hc hp hs hg hi hfc,
    endCommand_writeAll_failed hb (rsvdField_configuredWord fc e) [.fc, .fs i] Nat.one_lt_two hfail, List.take_succ_cons,
    List.take_zero, hfirst, ← addrOf_fs]
  rfl

end

/-! ## The statements on CONFIGURE and DECONFIGURE -/

/-- Settles O20: the word of the pair is determined by its value. -/
theorem configureWritesFrameCountThenGain : Obligations.ConfigureWritesFrameCountThenGain := by
  intro s d c e i fc w hd hb hok hc hp hs hg hi hfc hw
  obtain rfl : w = packEncoded e := BitVec.eq_of_toNat_eq (hw.trans (packEncoded_toNat e).symm)
  exact configureWith_completes hd hc hp hs hg hi hfc hb hok

/-- Settles O21: the gain is 1.0 before `validate` looks at it. -/
theorem deconfigureWritesUnityGain : Obligations.DeconfigureWritesUnityGain := by
  intro s d c i fc hd hb hok hc hp hs hi hfc
  have h := configureWith_completes (c := { c with gain := .real unityGain }) hd hc hp hs encodeGain_unityGain hi hfc
    hb hok
  rw [packEncoded_unityGain, encodeExact_unityGain] at h
  exact h

/-- Settles O23: both commands are `configureWith` of a gain that encodes. -/
theorem configureStopsAtFailedWrite : Obligations.ConfigureStopsAtFailedWrite := by
  intro s d c i fc hd hb hc hp hs hi hfc
  obtain ⟨index, hindex⟩ : ∃ index : Fin 20, index.val = c.channel.toNat + c.pol.toNat * 10 := ⟨⟨_, by omega⟩, rfl⟩
  rw [← hindex]
  obtain ⟨rfl, e, hg⟩ | rfl := hi
  · exact ⟨configureWith_first_fails hd hc hp hs hg hindex hfc hb,
      configureWith_second_fails hd hc hp hs hg hindex hfc hb⟩
  · exact ⟨configureWith_first_fails (c := { c with gain := .real unityGain }) hd hc hp hs encodeGain_unityGain hindex
        hfc hb,
      configureWith_second_fails (c := { c with gain := .real unityGain }) hd hc hp hs encodeGain_unityGain hindex
        hfc hb⟩

/-! ## The frame -/

/-- Only registers of which `written` holds may differ, and neither the Device, a draw nor what is presented does. -/
def ChangesOnly (written : Reg → Prop) (s t : State) : Prop :=
  (∀ r, ¬ written r → readReg t r = readReg s r) ∧
    t.device = s.device ∧ t.drawCount = s.drawCount ∧ t.pending = s.pending

/-- The registers that a Config record names: `FC` and the `FS` register of its pair, if there is one. -/
def IsConfigured (c : VccConfig) : Reg → Prop
  | .fc => True
  | .fs j => j.val = c.channel.toNat + c.pol.toNat * 10

theorem readReg_afterWrites (base : Nat) (word : Reg → Word) (regs : List Reg) (s : State) (r : Reg) :
    readReg (afterWrites base word regs s) r = if r ∈ regs then word r else readReg s r := by
  cases r with
  | fc => rfl
  | fs j => simp [readReg, afterWrites]

section
variable {written : Reg → Prop} {s : State}

theorem writeAll_changesOnly {base : Nat} {word : Reg → Word} (hb : base % 4 = 0)
    (hword : ∀ i, rsvdField (word (.fs i)) = 0) {regs : List Reg} (hregs : ∀ r ∈ regs, written r) :
    (writeAll base word regs s).EndsIn (ChangesOnly written s) := by
  refine (writeAll_endsIn hb hword regs s).imp ?_
  rintro _ ⟨k, script, rfl⟩
  refine ⟨fun r hr => ?_, rfl, rfl, rfl⟩
  have hnot : r ∉ regs.take k := fun h => hr (hregs r (List.mem_of_mem_take h))
  exact (readReg_congr rfl rfl r).trans ((readReg_afterWrites base word _ s r).trans (if_neg hnot))

theorem endCommand_changesOnly {x : BusResult Value} (hx : x.EndsIn (ChangesOnly written s)) :
    NextIn (ChangesOnly written s) (endCommand x) := by
  intro t h
  obtain ⟨v, u, rfl, rfl⟩ | ⟨a, dir, u, rfl, -, rfl⟩ := endCommand_next h
  · exact hx
  · exact hx

end

theorem configureWith_changesOnly {s : State} (hvalid : DeviceValid s) (c : VccConfig) :
    NextIn (ChangesOnly (IsConfigured c) s) (configureWith c s) := by
  intro t h
  obtain ⟨d, hd, ⟨info, -, rfl⟩ | ⟨v, hv, -⟩⟩ := configureWith_next h
  · exact ⟨fun r _ => readReg_congr rfl rfl r, rfl, rfl, rfl⟩
  · obtain ⟨hbase, -⟩ := hvalid d hd
    obtain ⟨hchannel, hpol, -⟩ := (validate_ok_iff c v).mp hv
    have hindex : (regIndex v.channel v.pol).val = c.channel.toNat + c.pol.toNat * 10 := by
      rw [hchannel, hpol, regIndex]
    have hregs : ∀ r ∈ [Reg.fc, .fs (regIndex v.channel v.pol)], IsConfigured c r := by
      simp [IsConfigured, hindex]
    rw [configureWith_ok hd hv] at h
    exact endCommand_changesOnly (writeAll_changesOnly hbase (rsvdField_configuredWord _ _) hregs).map t h

/-- Settles O24: whatever the operands and the outcomes, only `FC` and the register of the pair may be written. -/
theorem configureLeavesOtherChannels : Obligations.ConfigureLeavesOtherChannels := by
  intro s t c hvalid h
  obtain ⟨hsame, hrest⟩ : ChangesOnly (IsConfigured c) s t :=
    h.elim (configureWith_changesOnly hvalid c t) (configureWith_changesOnly hvalid { c with gain := _ } t)
  exact ⟨fun j hj => hsame (.fs j) hj, hrest⟩

end Sys2Proof.Machine

/-! RECOVER (42_device_ops.md R153): its 40 writes, two for each register of a gain. -/

namespace Sys2Proof.Machine

/-! ## The order of the writes -/

/-- The registers in the order in which RECOVER writes them: `FC` before each `FS[i]`. -/
def recoverRegs : List Reg := (List.finRange 20).flatMap fun i => [.fc, .fs i]

theorem recoverRegs_length : recoverRegs.length = 40 := rfl

theorem getElem?_flatMap_pair {α β : Type} (f g : α → β) (l : List α) (m : Nat) :
    (l.flatMap fun a => [f a, g a])[m]? = l[m / 2]?.map (if m % 2 = 0 then f else g) := by
  induction l generalizing m with
  | nil => rfl
  | cons a rest ih =>
    match m with
    | 0 => rfl
    | 1 => rfl
    | m + 2 =>
      have hdiv : (m + 2) / 2 = m / 2 + 1 := by omega
      have hmod : (m + 2) % 2 = m % 2 := by omega
      rw [hdiv, hmod, List.getElem?_cons_succ, ← ih]
      rfl

theorem recoverRegs_getElem {m : Nat} (hm : m < recoverRegs.length) :
    recoverRegs[m] = if m % 2 = 0 then .fc else .fs ⟨m / 2, Nat.div_lt_of_lt_mul hm⟩ := by
  have hindex : m / 2 < 20 := Nat.div_lt_of_lt_mul hm
  have hget : (List.finRange 20)[m / 2]? = some ⟨m / 2, hindex⟩ := by
    rw [List.getElem?_eq_getElem (by rwa [List.length_finRange]), List.getElem_finRange]
    rfl
  rw [List.getElem_eq_iff, recoverRegs, getElem?_flatMap_pair (fun _ => Reg.fc) Reg.fs, hget, Option.map_some]
  split <;> rfl

theorem fc_mem_take_recoverRegs {k : Nat} : .fc ∈ recoverRegs.take k ↔ k ≠ 0 := by
  rw [List.mem_take_iff_getElem]
  constructor
  · rintro ⟨m, hm, -⟩
    omega
  · intro hk
    exact ⟨0, Nat.lt_min.mpr ⟨Nat.pos_of_ne_zero hk, by decide⟩, rfl⟩

theorem fs_mem_take_recoverRegs {j : Fin 20} {k : Nat} : .fs j ∈ recoverRegs.take k ↔ 2 * j.val + 1 < k := by
  rw [List.mem_take_iff_getElem]
  constructor
  · rintro ⟨m, hm, hget⟩
    rw [recoverRegs_getElem] at hget
    split at hget
    · cases hget
    · have hj : m / 2 = j.val := congrArg Fin.val (Reg.fs.inj hget)
      omega
  · intro h
    have hodd : ¬ (2 * j.val + 1) % 2 = 0 := by omega
    have hdiv : (2 * j.val + 1) / 2 = j.val := by omega
    refine ⟨2 * j.val + 1, by rw [recoverRegs_length]; omega, ?_⟩
    rw [recoverRegs_getElem, if_neg hodd]
    exact congrArg Reg.fs (Fin.ext hdiv)

/-- The loop of R153 is a run of writes in this order. -/
theorem recoverLoop_eq (base : Nat) (pairs : List (Fin 2 × Fin 10)) (s : State) :
    recoverLoop base pairs s =
      writeAll base (configuredWord (frameCountOf Config.defaultSampleRate Config.defaultInputFrameSize)
        (encodeExact unityGain)) ((pairs.map fun p => regIndex p.2 p.1).flatMap fun i => [.fc, .fs i]) s := by
  induction pairs generalizing s with
  | nil => rfl
  | cons p rest ih =>
    rw [recoverLoop, configureWrites_eq, List.map_cons, List.flatMap_cons, writeAll_append, BusResult.andThen_assoc]
    simp only [BusResult.done_andThen, ih]
    rfl

/-! ## The 40 writes -/

section
variable {s : State} {d : Device} {fc : Word} (hd : s.device = some d)
  (hfc : fc.toNat = Config.defaultSampleRate.toNat / Config.defaultInputFrameSize.toNat)
include hd hfc

theorem exec_recover :
    exec .recover s = endCommand ((writeAll d.base (configuredWord fc (encodeExact unityGain)) recoverRegs s).andThen
      fun _ s => .done (.outOfRange false) s) := by
  obtain rfl : fc = frameCountOf Config.defaultSampleRate Config.defaultInputFrameSize :=
    BitVec.eq_of_toNat_eq (hfc.trans (frameCountOf_toNat _ _).symm)
  rw [recoverRegs, ← recoverPairs_indices, ← recoverLoop_eq]
  exact withDevice_some hd _

end

/-- The entries of all 40 writes. -/
theorem recoverRegs_entries (base : Nat) (fc : Word) :
    (recoverRegs.map fun r =>
        (⟨.write, addrOf base r, configuredWord fc (encodeExact unityGain) r⟩ : Transaction)) =
      (List.range 20).flatMap fun i => [⟨.write, base, fc⟩, ⟨.write, base + 4 + 4 * i, 0x00087973#32⟩] := by
  rw [recoverRegs, List.map_flatMap, ← List.map_coe_finRange_eq_range, List.flatMap_map]
  simp only [List.map_cons, List.map_nil, addrOf_fs, configuredWord, packEncoded_unityGain]
  rfl

/-- The state after the first `k` writes. -/
theorem afterWrites_take_recoverRegs (base : Nat) (fc : Word) {k : Nat} (hk : k ≤ 40) (s : State) :
    afterWrites base (configuredWord fc (encodeExact unityGain)) (recoverRegs.take k) s =
      { s with
        fc := if k = 0 then s.fc else fc
        fs := Vector.ofFn fun j : Fin 20 => if 2 * j.val + 1 < k then 0x00087973#32 else s.fs[j]
        busTrace := s.busTrace ++ ((List.range 20).flatMap fun i =>
          [⟨.write, base, fc⟩, ⟨.write, base + 4 + 4 * i, 0x00087973#32⟩]).take k
        busScript := s.busScript.drop k } := by
  have hlength : (recoverRegs.take k).length = k := by rw [List.length_take, recoverRegs_length, Nat.min_eq_left hk]
  rw [afterWrites, hlength, List.map_take, recoverRegs_entries]
  simp only [fc_mem_take_recoverRegs, fs_mem_take_recoverRegs, ite_not, configuredWord, packEncoded_unityGain]

/-! ## The statements on RECOVER -/

/-- Settles O26: all 40 writes are the first 40. -/
theorem recoverDeterminesEveryRegister : Obligations.RecoverDeterminesEveryRegister := by
  intro s d fc hd hb hok hfc
  have hall (fs : Vector Word 20) :
      (Vector.ofFn fun j : Fin 20 => if 2 * j.val + 1 < 40 then 0x00087973#32 else fs[j]) =
        Vector.replicate 20 0x00087973#32 := by
    ext j hj
    have hlt : 2 * j + 1 < 40 := by omega
    simp [hlt]
  rw [exec_recover hd hfc, endCommand_writeAll_ok hb (rsvdField_configuredWord fc _) recoverRegs hok,
    ← List.take_length (l := recoverRegs), recoverRegs_length, afterWrites_take_recoverRegs d.base fc le_rfl, hall,
    List.take_of_length_le (by simp)]
  rfl

/-- Settles O27: the write that fails is to `FC` for an even number, else to an `FS` register. -/
theorem recoverStopsAtFailedWrite : Obligations.RecoverStopsAtFailedWrite := by
  intro s d fc k hd hb hk hfail hfc
  have hk' : k < recoverRegs.length := hk
  have haddr : addrOf d.base recoverRegs[k] = if k % 2 = 0 then d.base else d.base + 4 + 4 * (k / 2) := by
    rw [recoverRegs_getElem]
    split
    · rfl
    · exact addrOf_fs _ _
  rw [exec_recover hd hfc,
    endCommand_writeAll_failed hb (rsvdField_configuredWord fc _) recoverRegs hk' hfail, haddr,
    afterWrites_take_recoverRegs d.base fc hk.le]

end Sys2Proof.Machine

/-! STATUS (42_device_ops.md R156): its 21 reads, and what it reports after CONFIGURE (R160). -/

namespace Sys2Proof.Machine

/-! ## Outcomes further on in the script -/

section
variable {m n : Nat} {s t : State}

theorem OutcomesOk.mono (h : OutcomesOk n s) (hmn : m ≤ n) : OutcomesOk m s :=
  fun o ho => h o (List.take_subset_take_left _ hmn ho)

theorem outcomesOk_of_drop (h : OutcomesOk (m + n) s) (ht : t.busScript = s.busScript.drop m) : OutcomesOk n t := by
  intro o ho
  rw [ht] at ho
  exact h o (by rw [List.take_add]; exact List.mem_append_right _ ho)

theorem failsAt_of_drop (h : FailsAt (m + n) s) (ht : t.busScript = s.busScript.drop m) : FailsAt n t := by
  obtain ⟨hok, hfault⟩ := h
  exact ⟨outcomesOk_of_drop hok ht, by rw [ht, List.getElem?_drop, hfault]⟩

end

/-! ## The 21 reads -/

/-- The registers in the order in which STATUS reads them. -/
def statusRegs : List Reg := (List.finRange 20).map .fs ++ [.fc]

/-- The report of STATUS on the registers of a state (10_state.md R29). -/
def statusOf (s : State) : Status :=
  ⟨sampleRateOf s.fc, 10, 2, (List.finRange 20).map fun i : Fin 20 => decodeWord s.fs[i]⟩

section
variable {base : Nat} (hb : base % 4 = 0) {s : State}
include hb

theorem statusReads_done (h : OutcomesOk 21 s) :
    statusReads base s = .done (statusOf s) (afterReads base statusRegs s) := by
  have hloop : OutcomesOk 20 s := h.mono (by decide)
  have hlast : nextOutcome (afterReads base ((List.finRange 20).map .fs) s) = .ok :=
    nextOutcome_eq_ok (outcomesOk_of_drop (m := 20) h rfl)
  rw [statusReads, statusLoop_done hb (List.finRange 20) s hloop, BusResult.done_andThen, ← addrOf,
    busRead_addrOf .fc hb hlast, BusResult.done_andThen, statusRegs, afterReads_append, afterReads_cons,
    afterReads_nil]
  rfl

theorem statusReads_failed {k : Nat} (hk : k < 21) (h : FailsAt k s) :
    statusReads base s =
      .failed (if k < 20 then base + 4 + 4 * k else base) .read
        (dropOutcome (afterReads base (((List.finRange 20).take k).map .fs) s)) := by
  by_cases hlt : k < 20
  · have hindex : k < (List.finRange 20).length := hlt
    rw [statusReads, statusLoop_failed hb (List.finRange 20) hindex s h, BusResult.failed_andThen, addrOf_fs,
      if_pos hlt, List.getElem_finRange]
    rfl
  · obtain rfl : k = 20 := by omega
    have ⟨hok, _⟩ := h
    have hlast : nextOutcome (afterReads base ((List.finRange 20).map .fs) s) = .fault :=
      nextOutcome_eq_fault (failsAt_of_drop (m := 20) h rfl)
    rw [statusReads, statusLoop_done hb (List.finRange 20) s hok, BusResult.done_andThen, ← addrOf,
      busRead_fault (inWindow_addrOf hb .fc) hlast]
    rfl

end

section
variable {s : State} {d : Device} (hd : s.device = some d) (hb : d.base % 4 = 0) (clear : Bool)
include hd

theorem exec_status :
    exec (.status clear) s = endCommand ((statusReads d.base s).andThen fun st s => .done (.status st) s) :=
  withDevice_some hd _

include hb

theorem exec_status_completes (h : OutcomesOk 21 s) :
    exec (.status clear) s =
      .next { afterReads d.base statusRegs s with result := some (.ok (.status (statusOf s))) } := by
  rw [exec_status hd, statusReads_done hb h]
  rfl

end

/-! ## The statements on STATUS -/

/-- Settles O30: the entries and the report, register by register. -/
theorem statusReportsEveryRegister : Obligations.StatusReportsEveryRegister := by
  intro s d clear rate hd hb hok hrate
  obtain rfl : rate = sampleRateOf s.fc := BitVec.eq_of_toNat_eq (hrate.trans (sampleRateOf_toNat _).symm)
  have hentries : (statusRegs.map fun r => (⟨.read, addrOf d.base r, readReg s r⟩ : Transaction)) =
      ((List.finRange 20).map fun i : Fin 20 => ⟨.read, d.base + 4 + 4 * i.val, s.fs[i]⟩) ++
        [⟨.read, d.base, s.fc⟩] := by
    rw [statusRegs, List.map_append, List.map_map]
    simp only [Function.comp_def, addrOf_fs]
    rfl
  rw [exec_status_completes hd hb clear hok, afterReads, hentries, ← List.append_assoc]
  rfl

/-- Settles O31: the reads before the failed one are of the first `k` registers `FS`. -/
theorem statusStopsAtFailedRead : Obligations.StatusStopsAtFailedRead := by
  intro s d clear k hd hb hk hfail
  have hentries : ((((List.finRange 20).take k).map Reg.fs).map fun r =>
        (⟨.read, addrOf d.base r, readReg s r⟩ : Transaction)) =
      ((List.finRange 20).map fun i : Fin 20 => ⟨.read, d.base + 4 + 4 * i.val, s.fs[i]⟩).take k := by
    rw [← List.map_take, List.map_map]
    simp only [Function.comp_def, addrOf_fs]
    rfl
  have hlength : (((List.finRange 20).take k).map Reg.fs).length = k := by
    rw [List.length_map, List.length_take, List.length_finRange]
    omega
  rw [exec_status hd, statusReads_failed hb hk hfail, BusResult.failed_andThen, endCommand_failed,
    raiseDeviceFault_dropOutcome, afterReads, hentries, hlength, List.drop_drop]

/-! ## STATUS after CONFIGURE -/

theorem statusOf_gains_getElem? (s : State) (j : Fin 20) :
    (statusOf s).gains[j.val]? = some (decodeWord s.fs[j]) := by
  simp [statusOf]

theorem decodeWord_packEncoded (e : Encoded) : decodeWord (packEncoded e) = decodeGain e.shift e.scale := by
  have hshift : (unpack (packEncoded e)).1 = e.shift := by
    apply BitVec.eq_of_toNat_eq
    rw [unpack_shift_toNat, packEncoded_toNat]
    omega
  have hscale : (unpack (packEncoded e)).2 = e.scale := by
    apply BitVec.eq_of_toNat_eq
    rw [unpack_scale_toNat, packEncoded_toNat]
    omega
  rw [decodeWord, hshift, hscale]

/-- Settles O25: STATUS reports on the registers that CONFIGURE left. -/
theorem configureThenStatus : Obligations.ConfigureThenStatus := by
  intro s d c e i clear hd hb hhealthy hc hp hs hg hi
  have hconfigure := configureWith_completes hd hc hp hs hg hi (frameCountOf_toNat c.sampleRate c.inputFrameSize) hb
    fun o ho => hhealthy o (List.mem_of_mem_take ho)
  refine ⟨_, _, _, hconfigure, exec_status_completes ?_ hb clear ?_, rfl, ?_, ?_, fun j hij => ?_⟩
  · exact hd
  · exact fun o ho => hhealthy o (List.mem_of_mem_drop (List.mem_of_mem_take ho))
  · exact sampleRateOf_frameCountOf_toNat c.sampleRate c.inputFrameSize
  · rw [statusOf_gains_getElem?, ← decodeWord_packEncoded]
    exact congrArg (some ∘ decodeWord) (Vector.getElem_set_self i.isLt)
  · have hne : i.val ≠ j.val := fun h => hij (Fin.ext h.symm)
    rw [statusOf_gains_getElem?]
    exact congrArg (some ∘ decodeWord) (Vector.getElem_set_ne i.isLt j.isLt hne)

end Sys2Proof.Machine

/-! The fault mark (60_exceptions.md R183): transactions leave it as it is, only the end of a command whose transaction
failed sets it, and a transaction fails only by an outcome of the script (20_memory.md R66). -/

namespace Sys2Proof.Machine

/-! ## Transactions -/

/-- The transactions issued from `s` leave the mark and take their outcomes from the front of the script, in which a
failed one finds its fault. -/
def BusResult.FailsByScript {α : Type} (s : State) : BusResult α → Prop
  | .done _ t => t.faultMark = s.faultMark ∧ t.busScript <:+ s.busScript
  | .failed _ _ t => t.faultMark = s.faultMark ∧ .fault ∈ s.busScript
  | .refused _ => True

theorem BusResult.FailsByScript.done {α : Type} (a : α) (s : State) : (BusResult.done a s).FailsByScript s :=
  ⟨rfl, List.suffix_rfl⟩

/-- What transactions find in the rest of a script is in the whole of it. -/
theorem BusResult.FailsByScript.of_suffix {α : Type} {s u : State} {x : BusResult α} (hx : x.FailsByScript u)
    (hmark : u.faultMark = s.faultMark) (hscript : u.busScript <:+ s.busScript) : x.FailsByScript s := by
  cases x with
  | done a t =>
    obtain ⟨hmark', hscript'⟩ := hx
    exact ⟨hmark'.trans hmark, hscript'.trans hscript⟩
  | failed addr dir t =>
    obtain ⟨hmark', hfault⟩ := hx
    exact ⟨hmark'.trans hmark, hscript.subset hfault⟩
  | refused r => trivial

theorem BusResult.FailsByScript.andThen {α β : Type} {s : State} {x : BusResult α} {k : α → State → BusResult β}
    (hx : x.FailsByScript s) (hk : ∀ a u, (k a u).FailsByScript u) : (x.andThen k).FailsByScript s := by
  cases x with
  | done a u =>
    obtain ⟨hmark, hscript⟩ := hx
    exact (hk a u).of_suffix hmark hscript
  | failed addr dir u => exact hx
  | refused r => trivial

theorem BusResult.FailsByScript.map {α β : Type} {s : State} {x : BusResult α} {f : α → β} (hx : x.FailsByScript s) :
    (x.andThen fun a s => .done (f a) s).FailsByScript s :=
  hx.andThen fun a u => .done (f a) u

theorem fault_mem_busScript {s : State} (h : nextOutcome s = .fault) : .fault ∈ s.busScript :=
  have ⟨_, hfault⟩ := failsAt_zero_iff.mpr h
  List.mem_of_getElem? hfault

theorem busWrite_failsByScript (base addr : Nat) (v : Word) (s : State) :
    (busWrite base addr v s).FailsByScript s := by
  cases h : busWrite base addr v s with
  | done u t =>
    obtain ⟨r, -, -, rfl⟩ := busWrite_done h
    exact ⟨by simp, by simp [List.tail_suffix]⟩
  | failed a dir t =>
    obtain ⟨-, -, ho, rfl⟩ := busWrite_failed h
    exact ⟨rfl, fault_mem_busScript ho⟩
  | refused r => trivial

theorem busRead_failsByScript (base addr : Nat) (s : State) : (busRead base addr s).FailsByScript s := by
  cases h : busRead base addr s with
  | done w t =>
    obtain ⟨r, -, -, -, rfl⟩ := busRead_done h
    exact ⟨rfl, List.tail_suffix s.busScript⟩
  | failed a dir t =>
    obtain ⟨-, -, ho, rfl⟩ := busRead_failed h
    exact ⟨rfl, fault_mem_busScript ho⟩
  | refused r => trivial

theorem configureWrites_failsByScript (base : Nat) (c : ValidConfig) (s : State) :
    (configureWrites base c s).FailsByScript s :=
  (busWrite_failsByScript base _ _ s).andThen fun _ u => (busWrite_failsByScript base _ _ u).map

theorem recoverLoop_failsByScript (base : Nat) (pairs : List (Fin 2 × Fin 10)) :
    ∀ s, (recoverLoop base pairs s).FailsByScript s := by
  induction pairs with
  | nil => exact .done ()
  | cons p rest ih => exact fun s => (configureWrites_failsByScript base _ s).andThen fun _ => ih

theorem statusLoop_failsByScript (base : Nat) (indices : List (Fin 20)) :
    ∀ s, (statusLoop base indices s).FailsByScript s := by
  induction indices with
  | nil => exact .done []
  | cons i rest ih => exact fun s => (busRead_failsByScript base _ s).andThen fun _ u => (ih u).map

theorem statusReads_failsByScript (base : Nat) (s : State) : (statusReads base s).FailsByScript s :=
  (statusLoop_failsByScript base _ s).andThen fun _ u => (busRead_failsByScript base _ u).map

/-! ## The end of an instruction -/

/-- How an instruction executed in `s` may end: without `DeviceFault` and with the mark as it was, or with `DeviceFault`,
the mark set and a fault in the script. -/
inductive FaultAccounted (s t : State) : Prop
  | noFault (mark : t.faultMark = s.faultMark) (result : ∀ a dir, t.result ≠ some (.deviceFault a dir))
  | fault (a : Nat) (dir : Direction) (mark : t.faultMark = true) (result : t.result = some (.deviceFault a dir))
      (cause : .fault ∈ s.busScript)

section
variable {s t : State}

theorem FaultAccounted.faultMark_iff (h : FaultAccounted s t) :
    t.faultMark = true ↔ s.faultMark = true ∨ ∃ a dir, t.result = some (.deviceFault a dir) := by
  cases h with
  | noFault mark result =>
    have hnone : ¬ ∃ a dir, t.result = some (.deviceFault a dir) := fun ⟨a, dir, h⟩ => result a dir h
    rw [mark, or_iff_left hnone]
  | fault a dir mark result cause => exact iff_of_true mark (.inr ⟨a, dir, result⟩)

theorem FaultAccounted.fault_mem (h : FaultAccounted s t) (ht : t.faultMark = true) (hs : s.faultMark = false) :
    .fault ∈ s.busScript := by
  cases h with
  | noFault mark result => cases ht.symm.trans (mark.trans hs)
  | fault a dir mark result cause => exact cause

end

theorem reply_ok_faultAccounted (v : Value) (s : State) : NextIn (FaultAccounted s) (reply (.ok v) s) := by
  rintro t ⟨⟩
  exact .noFault rfl nofun

theorem reply_invalidArgument_faultAccounted (info : ArgInfo) (s : State) :
    NextIn (FaultAccounted s) (reply (.invalidArgument info) s) := by
  rintro t ⟨⟩
  exact .noFault rfl nofun

theorem endCommand_faultAccounted {s : State} {x : BusResult Value} (hx : x.FailsByScript s) :
    NextIn (FaultAccounted s) (endCommand x) := by
  intro t h
  obtain ⟨v, u, rfl, rfl⟩ | ⟨a, dir, u, rfl, -, rfl⟩ := endCommand_next h
  · obtain ⟨hmark, -⟩ := hx
    exact .noFault hmark nofun
  · obtain ⟨-, hfault⟩ := hx
    exact .fault a dir rfl rfl hfault

theorem configureWith_faultAccounted (c : VccConfig) (s : State) : NextIn (FaultAccounted s) (configureWith c s) := by
  intro t h
  obtain ⟨d, -, ⟨info, -, rfl⟩ | ⟨v, -, h⟩⟩ := configureWith_next h
  · exact .noFault rfl nofun
  · exact endCommand_faultAccounted (configureWrites_failsByScript _ v s).map t h

theorem exec_faultAccounted (i : Instr) (s : State) : NextIn (FaultAccounted s) (exec i s) := by
  have answer (v : Value) : NextIn (FaultAccounted s) (reply (.ok v) s) := reply_ok_faultAccounted v s
  cases i with
  | construct name base =>
    intro t h
    obtain ⟨-, -, -, rfl⟩ := execConstruct_next h
    exact .noFault rfl nofun
  | registerWrite addr v =>
    exact withDevice_nextIn fun _ => endCommand_faultAccounted (busWrite_failsByScript _ addr v s).map
  | registerRead addr =>
    exact withDevice_nextIn fun _ => endCommand_faultAccounted (busRead_failsByScript _ addr s).map
  | recover => exact withDevice_nextIn fun _ => endCommand_faultAccounted (recoverLoop_failsByScript _ _ s).map
  | configure c => exact configureWith_faultAccounted c s
  | start => exact withDevice_nextIn fun _ => answer _
  | stop force => exact withDevice_nextIn fun _ => answer _
  | deconfigure c => exact configureWith_faultAccounted _ s
  | status clear => exact withDevice_nextIn fun _ => endCommand_faultAccounted (statusReads_failsByScript _ s).map
  | encodeGain g =>
    cases hg : encodeGain g with
    | error why =>
      rw [exec_encodeGain_error s hg]
      exact reply_invalidArgument_faultAccounted why s
    | ok e =>
      rw [exec_encodeGain_ok s hg]
      exact answer _
  | decodeGain shift scale => exact answer _
  | pack shift scale => exact answer _
  | unpack w => exact answer _
  | frameCountOf rate size =>
    obtain rfl | hsize := eq_or_ne size 0
    · rw [exec_frameCountOf_zero]
      exact reply_invalidArgument_faultAccounted _ s
    · rw [exec_frameCountOf s hsize]
      exact answer _
  | sampleRateOf f => exact answer _
  | regIndex channel pol => exact answer _
  | regAddr index => exact withDevice_nextIn fun _ => answer _

/-- Settles O54: only the end of a command reports `DeviceFault`, where a transaction failed, and it sets the mark then. -/
theorem faultMarkFollowsDeviceFault : Obligations.FaultMarkFollowsDeviceFault := by
  intro s t i h
  have haccounted : FaultAccounted s t := exec_faultAccounted i s t h
  exact ⟨haccounted.faultMark_iff, fun ht hs => List.mem_iff_getElem?.mp (haccounted.fault_mem ht hs)⟩

end Sys2Proof.Machine

/-! The reset event (70_reset_and_hazards.md R210, R211). -/

namespace Sys2Proof.Machine

theorem hardwareReset_fs_getElem (s : State) (i : Fin 20) :
    (hardwareReset s).fs[i] = Config.resetDraw (s.drawCount + 1 + i.val) := by
  rw [hardwareReset_fs, Fin.getElem_fin, Vector.getElem_ofFn]

theorem step_of_reset {s : State} {rest : List Input} (hp : s.pending = .reset :: rest) :
    step s = .next (hardwareReset { s with pending := rest }) := by
  simp only [step, fetch, taken, hp, List.tail_cons]

/-- Settles O7: the draws of the `FS` registers follow that of `FC`, and the reset writes nothing but the registers and
the count of draws. -/
theorem resetEventDrawsEveryRegister : Obligations.ResetEventDrawsEveryRegister := by
  intro s rest hp
  exact ⟨_, step_of_reset hp, hardwareReset_fc _, hardwareReset_fs_getElem _, hardwareReset_drawCount _,
    hardwareReset_pending _, hardwareReset_device _, hardwareReset_busTrace _, hardwareReset_result _,
    hardwareReset_faultMark _, hardwareReset_busScript _⟩

end Sys2Proof.Machine

/-! What the decoder answers is well formed (log entries 2 and 3): each reader of an operand hands on a value within the
bound of its field, and `Instr.wellFormed` asks no more of the operands than these bounds. -/

namespace Sys2Proof

/-- Any instruction that this decoder's answer holds is well formed. -/
def AnswersWellFormed (x : Except DecodeError Instr) : Prop := ∀ i, x = .ok i → i.wellFormed = true

/-! ## The bounds of the fields -/

theorem error_answersWellFormed (why : DecodeError) : AnswersWellFormed (.error why) :=
  fun _ h => nomatch h

theorem ite_error_answersWellFormed {c : Prop} [Decidable c] {x : Except DecodeError Instr} {why : DecodeError}
    (hx : c → AnswersWellFormed x) : AnswersWellFormed (if c then x else .error why) := by
  split
  · exact hx ‹c›
  · exact error_answersWellFormed why

theorem finish_answersWellFormed {i : Instr} (hi : i.wellFormed = true) (rest : List Byte) :
    AnswersWellFormed (finish i rest) :=
  fun _ h => finish_ok h ▸ hi

theorem noVariant_answersWellFormed {k : Except DecodeError Instr} (variant : Nat) (hk : AnswersWellFormed k) :
    AnswersWellFormed (noVariant variant k) :=
  ite_error_answersWellFormed fun _ => hk

/-- A field of `n` bytes hands on a number below `256 ^ n`. -/
theorem withField_answersWellFormed {n : Nat} {bs : List Byte} {k : Nat → List Byte → Except DecodeError Instr}
    (hk : ∀ v < 256 ^ n, ∀ rest, AnswersWellFormed (k v rest)) : AnswersWellFormed (withField n bs k) := by
  intro i h
  obtain ⟨v, rest, hv, -, -, hi⟩ := withField_ok h
  exact hk v hv rest i hi

theorem withBool_answersWellFormed {bs : List Byte} {k : Bool → List Byte → Except DecodeError Instr}
    (hk : ∀ b rest, AnswersWellFormed (k b rest)) : AnswersWellFormed (withBool bs k) := by
  refine withField_answersWellFormed fun b _ rest => ?_
  split
  · exact hk false rest
  · exact ite_error_answersWellFormed fun _ => hk true rest

/-- Two fields of 128 bits in two's complement and one of a natural number hold the parts of a number written out. -/
theorem surd_fits_of_fields (rat root : Nat) {denPred : Nat} (hden : denPred < 256 ^ 16) :
    Surd.fits ⟨intOfField rat, intOfField root, denPred⟩ = true := by
  have lo (n : Nat) : -(2 ^ 127) ≤ intOfField n := (BitVec.ofNat 128 n).le_toInt
  have hi (n : Nat) : intOfField n < 2 ^ 127 := (BitVec.ofNat 128 n).toInt_lt
  simp only [Surd.fits, Bool.and_eq_true, decide_eq_true_eq]
  exact ⟨⟨⟨⟨lo rat, hi rat⟩, lo root⟩, hi root⟩, hden⟩

theorem withGain_answersWellFormed {bs : List Byte} {k : Gain → List Byte → Except DecodeError Instr} (tag : Nat)
    (hk : ∀ g rest, g.fits = true → AnswersWellFormed (k g rest)) : AnswersWellFormed (withGain tag bs k) := by
  unfold withGain
  split
  · exact withField_answersWellFormed fun v _ rest => hk (.binary64 (BitVec.ofNat 64 v)) rest rfl
  · exact withField_answersWellFormed fun v _ rest => hk (.binary32 (BitVec.ofNat 32 v)) rest rfl
  · exact withField_answersWellFormed fun rat _ _ => withField_answersWellFormed fun root _ _ =>
      withField_answersWellFormed fun denPred hden rest =>
        hk (.real (.surd ⟨intOfField rat, intOfField root, denPred⟩)) rest (surd_fits_of_fields rat root hden)
  · exact withField_answersWellFormed fun name hname rest => hk (.real (.other name)) rest (decide_eq_true hname)
  · exact error_answersWellFormed .badGainTag

theorem withConfig_answersWellFormed {bs : List Byte} {k : VccConfig → List Byte → Except DecodeError Instr}
    (tag : Nat) (hk : ∀ c rest, c.gain.fits = true → AnswersWellFormed (k c rest)) :
    AnswersWellFormed (withConfig tag bs k) :=
  withField_answersWellFormed fun _ _ _ => withField_answersWellFormed fun _ _ _ =>
    withField_answersWellFormed fun _ _ _ => withField_answersWellFormed fun _ _ _ =>
      withGain_answersWellFormed tag fun _ rest hg => hk _ rest hg

/-! ## The rows -/

/-- The length of a name is one byte, and the name is no longer than that byte says. -/
theorem construct_wellFormed {base n : Nat} (hbase : base < 256 ^ 8) (hn : n < 256 ^ 1) (bs : List Byte) :
    (Instr.construct (bs.take n) base).wellFormed = true := by
  have hlength : (bs.take n).length < 256 := (List.length_take_le n bs).trans_lt hn
  simp only [Instr.wellFormed, Bool.and_eq_true, decide_eq_true_eq]
  exact ⟨hlength, hbase⟩

/-- The word gives 4 bits of the shift and 16 of the scale, the fields after it 32 bits more of each. -/
theorem pack_wellFormed {word shiftHigh scaleHigh : Nat} (hword : word < 2 ^ 20) (hshift : shiftHigh < 256 ^ 4)
    (hscale : scaleHigh < 256 ^ 4) :
    (Instr.pack (word % 16 + 16 * shiftHigh) (word / 16 + 65536 * scaleHigh)).wellFormed = true := by
  simp only [Instr.wellFormed, Bool.and_eq_true, decide_eq_true_eq]
  omega

/-- The cases are the opcodes 0 to 8 in order, then the unassigned ones. -/
theorem decodeCommand_answersWellFormed (opcode variant : Nat) (bs : List Byte) :
    AnswersWellFormed (decodeCommand opcode variant bs) := by
  unfold decodeCommand
  split
  · refine noVariant_answersWellFormed variant <| withField_answersWellFormed fun base hbase _ =>
      withField_answersWellFormed fun n hn rest => ?_
    split
    · exact error_answersWellFormed .truncated
    · exact finish_answersWellFormed (construct_wellFormed hbase hn rest) _
  · exact noVariant_answersWellFormed variant <| withField_answersWellFormed fun addr haddr _ =>
      withField_answersWellFormed fun v _ rest =>
        finish_answersWellFormed (i := .registerWrite addr (BitVec.ofNat 32 v)) (decide_eq_true haddr) rest
  · exact noVariant_answersWellFormed variant <| withField_answersWellFormed fun addr haddr rest =>
      finish_answersWellFormed (i := .registerRead addr) (decide_eq_true haddr) rest
  · exact noVariant_answersWellFormed variant <| finish_answersWellFormed rfl bs
  · exact withConfig_answersWellFormed variant fun c rest hc => finish_answersWellFormed (i := .configure c) hc rest
  · exact noVariant_answersWellFormed variant <| finish_answersWellFormed rfl bs
  · exact noVariant_answersWellFormed variant <| withBool_answersWellFormed fun _ rest =>
      finish_answersWellFormed rfl rest
  · exact withConfig_answersWellFormed variant fun c rest hc => finish_answersWellFormed (i := .deconfigure c) hc rest
  · exact noVariant_answersWellFormed variant <| withBool_answersWellFormed fun _ rest =>
      finish_answersWellFormed rfl rest
  · exact error_answersWellFormed .unassignedOpcode

/-- The cases are the selectors 0 to 7 in order, then the unassigned ones. -/
theorem decodeUnit_answersWellFormed (word selector : Nat) (bs : List Byte) :
    AnswersWellFormed (decodeUnit word selector bs) := by
  unfold decodeUnit
  split
  · exact withField_answersWellFormed fun _ hshift _ => withField_answersWellFormed fun _ hscale rest =>
      ite_error_answersWellFormed fun hword => finish_answersWellFormed (pack_wellFormed hword hshift hscale) rest
  · exact ite_error_answersWellFormed fun _ => withField_answersWellFormed fun tag _ _ =>
      withGain_answersWellFormed tag fun g rest hg => finish_answersWellFormed (i := .encodeGain g) hg rest
  · exact finish_answersWellFormed rfl bs
  · exact finish_answersWellFormed rfl bs
  · exact ite_error_answersWellFormed fun _ => withField_answersWellFormed fun _ _ _ =>
      withField_answersWellFormed fun _ _ rest => finish_answersWellFormed rfl rest
  · exact finish_answersWellFormed rfl bs
  · exact ite_error_answersWellFormed fun _ => finish_answersWellFormed rfl bs
  · exact ite_error_answersWellFormed fun _ => finish_answersWellFormed rfl bs
  · exact error_answersWellFormed .unassignedUnit

theorem decode_answersWellFormed (f : Frame) : AnswersWellFormed (decode f) := by
  unfold decode
  split
  · exact withField_answersWellFormed fun b _ rest => decodeCommand_answersWellFormed (b % 16) (b / 16) rest
  · exact withField_answersWellFormed fun word _ _ => withField_answersWellFormed fun selector _ rest =>
      decodeUnit_answersWellFormed word selector rest

/-- Settles O2: every operand of an answer was read from a field of the byte form. -/
theorem decodedInstructionsAreWellFormed : Obligations.DecodedInstructionsAreWellFormed :=
  decode_answersWellFormed

end Sys2Proof

/-! The step on no request and on bytes that are no instruction (30_encoding.md R90; log entry 5), and the state after
reset (log entries 6 and 7). -/

namespace Sys2Proof.Machine

/-- Settles O57: the decoder's name for the fault is the refusal's. -/
theorem undecodableRequestsAreRefused : Obligations.UndecodableRequestsAreRefused :=
  fun _ _ _ _ => step_of_decode_error

theorem step_of_nothing {s : State} (hp : s.pending = []) : step s = .next s := by
  simp only [step, fetch, idle, hp]

/-- Settles O6: an empty list of presented things is fetched as nothing. -/
theorem stepWithNothingPresentedIsIdle : Obligations.StepWithNothingPresentedIsIdle :=
  fun _ => step_of_nothing

theorem reset_fs_getElem (i : Fin 20) : State.reset.fs[i] = 0 := by
  rw [reset_fs, Fin.getElem_fin, Vector.getElem_replicate]

/-- Settles O8: field by field, the registers `FS` at every index. -/
theorem resetStateIsAsLogged : Obligations.ResetStateIsAsLogged :=
  ⟨reset_fc, reset_fs_getElem, reset_device, reset_result, reset_busTrace, reset_faultMark, reset_drawCount,
    reset_busScript, reset_pending⟩

theorem DeviceValid.of_device_none {s : State} (h : s.device = none) : DeviceValid s :=
  fun _ hd => nomatch h.symm.trans hd

/-- Settles O51: where no Device is constructed there is no base to constrain. -/
theorem resetDeviceIsValid : Obligations.ResetDeviceIsValid := DeviceValid.of_device_none reset_device

end Sys2Proof.Machine
